-- ==== Sys2Proof/Word.lean ====
section
/-! DEFINITION. The value type and the byte type (00_scope.md R7, 10_state.md R21). -/

namespace Sys2Proof

/-- A value: an unsigned 32-bit integer, the one variant of the value type (R7, R21). -/
abbrev Word := BitVec 32

/-- One byte of the program stream or of a host transfer (`00_scope.md` section 5). -/
abbrev Byte := BitVec 8

/-- Text the block carries without interpreting it: bytes (string operands R65, host messages R178, console lines
R215). Entry 14. -/
abbrev Text := List Byte

end Sys2Proof
end

