-- ==== Sys2Proof/Syntax.lean ====
section
/-! DEFINITION. The 24 decoded instructions (30_encoding.md R62) and the decoder's refusals (R70). -/

namespace Sys2Proof

/-- One constructor per row of spec/opcode_table.json (00_scope.md R3, 30_encoding.md R62, R67). -/
inductive Instr where
  | push (v : Word)
  | pop
  | dump
  | halt
  | dup
  | swap
  | rot
  | ret
  | add
  | sub
  | mul
  | div
  | call (target : Word)
  | cmp
  | label (id : Word)
  | syscall
  | jumpUnconditional (target : Word)
  | jumpEqual (target : Word)
  | jumpGreater (target : Word)
  | jumpLesser (target : Word)
  | jumpNotEqual (target : Word)
  | load
  | store
  | insertString (text : Text)
  deriving DecidableEq, Repr

/-- Why a byte stream spells no program (30_encoding.md R70, 60_exceptions.md R201); `offset` is the byte offset. -/
inductive DecodeRefusal where
  | illegalOpcode (offset : Nat) (byte : Byte)
  | nonAsciiString (offset : Nat)
  | programTooLarge (offset : Nat)
  deriving DecidableEq, Repr

end Sys2Proof
end

