-- ==== Sys2Proof/Machine/Ports.lean ====
section
/-! DEFINITION. What crosses the ports: host requests and replies (P3), console traffic (P5); 10_state.md R35. -/

namespace Sys2Proof

/-- What the block sends on port P3 (44_syscall.md R185). -/
inductive HostRequest where
  | read (fd count : Word)
  | write (fd : Word) (bytes : List Byte)
  | openFile (path : List Byte) (flags mode : Word)
  | close (fd : Word)
  deriving DecidableEq, Repr

/-- A host call in progress: what a `Syscall` of code 0 to 3 asked for (R172 to R175). `read` also names the buffer its
reply is written to, which the host does not see (R185). -/
inductive HostCall where
  | read (fd buf count : Word)
  | write (fd : Word) (bytes : List Byte)
  | openFile (path : List Byte) (flags : Word)
  | close (fd : Word)
  deriving DecidableEq, Repr

/-- One host reply (44_syscall.md R178, R185). `fail msg` answers any request. `ok` answers any request with success;
each request uses only its own part: Read takes `data` and the tail choice (R177), Open's `fd` is discarded (R174),
Write and Close take nothing. In `tail`, `none` keeps the cell and `some b` makes it `b` (R177). Entry 5. -/
inductive HostReply where
  | fail (msg : Text)
  | ok (data : List Byte) (tail : List (Option Byte)) (fd : Word)
  deriving DecidableEq, Repr

/-- What the debug console gives to one `ReadLine` (60_exceptions.md R215); a line includes its newline. -/
inductive ConsoleInput where
  | line (text : Text)
  | endOfInput
  deriving DecidableEq, Repr

/-- One event on port P5 (60_exceptions.md R215): the trace record (instruction, full `VS`, full `RS`, each top first),
the first cells of memory, or the input read. -/
inductive ConsoleEvent where
  | trace (i : Instr) (vs : List Word) (rs : List Nat)
  | cells (values : List Word)
  | input (c : ConsoleInput)
  deriving DecidableEq, Repr

end Sys2Proof
end

