-- ==== Sys2Proof/Config.lean ====
section
/-! DEFINITION. What is fixed for the machine: parameters (00_scope.md R7 to R13) and the free values, constants
without a body. -/

namespace Sys2Proof

/-- `CAP`: the number of data-memory cells (R8). -/
def Config.cap : Nat := 10000

/-- The largest value of a u32 place (00_scope.md section 5). -/
def Config.maxValue : Int := 4294967295

/-- `DEBUG_MEM_CELLS`: the cells the debug `mem` command prints (R12). -/
def Config.debugMemCells : Nat := 30

/-- `VSTACK_CAP`, `RSTACK_CAP` and `IMEM_CAP` (R10, R11); `none` is unbounded. Entry 8. -/
structure Params where
  vstackCap : Option Nat
  rstackCap : Option Nat
  imemCap   : Option Nat
  deriving DecidableEq, Repr

/-- The spec's default: every capacity unbounded (R10, R11). -/
def Params.default : Params := { vstackCap := none, rstackCap := none, imemCap := none }

/-- `OPEN_MODE`, an OPEN parameter of the host (R13, D15). Entry 13. -/
opaque Config.openMode : Word

/-- One less than `EXTRA_FAULT_EXIT_STATUS`. Entry 13. -/
opaque Config.extraFaultExitStatusLessOne : Nat

/-- `EXTRA_FAULT_EXIT_STATUS`: some non-zero status, otherwise open (R13, R207, D22). -/
def Config.extraFaultExitStatus : Nat := Config.extraFaultExitStatusLessOne + 1

/-- The host's answer to a request at draw `n`: any reply, or none yet (R178, R179, K12, K13). Entry 4. -/
opaque Config.hostReply : Nat → HostRequest → Option HostReply

/-- What the console gives at draw `n`: any input, or none yet (60_exceptions.md R215, R218, K13). Entry 6. -/
opaque Config.consoleInput : Nat → Option ConsoleInput

/-- Whether the trace is printed again before the read that follows a `mem` command, at draw `n` (left open: R215,
D18). Entry 7. -/
opaque Config.retrace : Nat → Bool

end Sys2Proof
end

