-- ==== Sys2Proof/Machine/Memory.lean ====
section
/-! DEFINITION. Sparse data by key in one canonical form, data memory over it (10_state.md R25, 20_memory.md R41), and
the label table (10_state.md R31). Entries 9 and 10. -/

namespace Sys2Proof.Machine

/-- Data by key; the canonical form lists the keys strictly rising. -/
abbrev Sparse (β : Type) := List (Nat × β)

def Sparse.get? {β : Type} : Sparse β → Nat → Option β
  | [], _ => none
  | (k, v) :: rest, a => if a = k then some v else Sparse.get? rest a

def Sparse.put {β : Type} : Sparse β → Nat → β → Sparse β
  | [], a, v => [(a, v)]
  | (k, w) :: rest, a, v =>
    if a < k then (a, v) :: (k, w) :: rest
    else if a = k then (a, v) :: rest
    else (k, w) :: Sparse.put rest a v

def Sparse.erase {β : Type} : Sparse β → Nat → Sparse β
  | [], _ => []
  | (k, w) :: rest, a => if a = k then rest else (k, w) :: Sparse.erase rest a

/-- The keys are strictly rising and at least `lo`. -/
def Sparse.sortedFrom {β : Type} : Nat → Sparse β → Bool
  | _, [] => true
  | lo, (k, _) :: rest => decide (lo ≤ k) && Sparse.sortedFrom (k + 1) rest

/-- Data memory: (cell index, value), no entry equal to `Memory.unwritten`. The unit of address is the 32-bit cell
(20_memory.md R41, R46). -/
abbrev Memory := Sparse Word

/-- What a cell nothing has written reads as (10_state.md R25, R34: zero at construction). -/
def Memory.unwritten : Word := 0#32

/-- The value of one cell (20_memory.md R54). -/
def Memory.read (m : Memory) (a : Nat) : Word := (Sparse.get? m a).getD Memory.unwritten

/-- Write one cell, keeping the canonical form. -/
def Memory.write (m : Memory) (a : Nat) (v : Word) : Memory :=
  if v = Memory.unwritten then Sparse.erase m a else Sparse.put m a v

/-- `MemRead(a, n)`: the cells `a .. a + n - 1` (00_scope.md section 5). -/
def Memory.readRange (m : Memory) (a n : Nat) : List Word := (List.range n).map fun i => Memory.read m (a + i)

/-- Write consecutive cells from `a`; a `none` leaves its cell alone (the kept cells of 44_syscall.md R177). -/
def Memory.writeSome (m : Memory) (a : Nat) : List (Option Word) → Memory
  | [] => m
  | none :: rest => Memory.writeSome m (a + 1) rest
  | some v :: rest => Memory.writeSome (Memory.write m a v) (a + 1) rest

/-- `MemWrite(a, n, v)` (00_scope.md section 5). -/
def Memory.writeRange (m : Memory) (a : Nat) (vs : List Word) : Memory := Memory.writeSome m a (vs.map some)

/-- The canonical form: indices strictly rising and below `CAP`, no entry that reads as an unlisted cell. -/
def Memory.wf (m : Memory) : Bool :=
  Sparse.sortedFrom 0 m && m.all fun c => decide (c.1 < Config.cap) && decide (c.2 ≠ Memory.unwritten)

/-- The label table: a partial map from label ids to instruction indices (10_state.md R31), keyed by the id's number. -/
abbrev LabelTable := Sparse Nat

/-- `labels[id]` (00_scope.md section 5). -/
def LabelTable.index? (t : LabelTable) (id : Word) : Option Nat := Sparse.get? t id.toNat

/-- `labels[id] <- i`: a later declaration overwrites an earlier one (30_encoding.md R69). -/
def LabelTable.declare (t : LabelTable) (id : Word) (i : Nat) : LabelTable := Sparse.put t id.toNat i

end Sys2Proof.Machine
end

