-- ==== Sys2Proof/WellFormed.lean ====
section
/-! DEFINITION. Which instruction terms a byte stream can spell (30_encoding.md R65, R75, R78). -/

namespace Sys2Proof

/-- A byte that may stand in an `InsertString` operand: 0x01 to 0x7F (R65). -/
def stringByteOk (b : Byte) : Bool := decide (1 ≤ b.toNat) && decide (b.toNat < 128)

/-- A term with an encoding that decodes back to it. Every u32 operand is legal (R78); string bytes are 0x01 to
0x7F (R65, R75). -/
def Instr.wf : Instr → Bool
  | .push _ => true
  | .pop => true
  | .dump => true
  | .halt => true
  | .dup => true
  | .swap => true
  | .rot => true
  | .ret => true
  | .add => true
  | .sub => true
  | .mul => true
  | .div => true
  | .call _ => true
  | .cmp => true
  | .label _ => true
  | .syscall => true
  | .jumpUnconditional _ => true
  | .jumpEqual _ => true
  | .jumpGreater _ => true
  | .jumpLesser _ => true
  | .jumpNotEqual _ => true
  | .load => true
  | .store => true
  | .insertString text => text.all stringByteOk

end Sys2Proof
end

