-- ==== Sys2Proof/Decode.lean ====
section
/-! DEFINITION. The binary codec (30_encoding.md R60 to R78): the decoder, total on any bytes, and the encoder. -/

namespace Sys2Proof

/-- The 4-byte little-endian operand (00_scope.md R9 and section 5, 30_encoding.md R64). -/
def u32le (b0 b1 b2 b3 : Byte) : Word :=
  BitVec.ofNat 32 (b0.toNat + 256 * b1.toNat + 65536 * b2.toNat + 16777216 * b3.toNat)

/-- Format F0: the opcode alone (R63). -/
def decodeF0 (op : Byte) : Option Instr :=
  match op.toNat with
  | 0x02 => some .pop
  | 0x03 => some .dump
  | 0x04 => some .halt
  | 0x05 => some .dup
  | 0x06 => some .swap
  | 0x07 => some .rot
  | 0x0D => some .ret
  | 0x28 => some .add
  | 0x29 => some .sub
  | 0x2A => some .mul
  | 0x2B => some .div
  | 0x43 => some .cmp
  | 0x53 => some .syscall
  | 0x8A => some .load
  | 0x8B => some .store
  | _ => none

/-- Format FI: the instruction an opcode makes of its operand (R64, R66). -/
def decodeFI (op : Byte) : Option (Word → Instr) :=
  match op.toNat with
  | 0x01 => some .push
  | 0x2F => some .call
  | 0x4C => some .label
  | 0x6A => some .jumpUnconditional
  | 0x6B => some .jumpEqual
  | 0x6C => some .jumpGreater
  | 0x6D => some .jumpLesser
  | 0x6E => some .jumpNotEqual
  | _ => none

/-- Format FS has one opcode, `InsertString` (R65). -/
def opcodeFS : Byte := 0x8C#8

/-- The scan of an `InsertString` operand. -/
inductive StringScan where
  | done (text : Text) (rest : List Byte)
  | nonAscii (offset : Nat)
  | unterminated
  deriving DecidableEq, Repr

/-- Scan string bytes from offset `k` to the terminating zero (R65, R68). -/
def scanString (k : Nat) : List Byte → StringScan
  | [] => .unterminated
  | b :: rest =>
    if b = 0#8 then .done [] rest
    else if 128 ≤ b.toNat then .nonAscii k
    else
      match scanString (k + 1) rest with
      | .done text rest' => .done (b :: text) rest'
      | .nonAscii k' => .nonAscii k'
      | .unterminated => .unterminated

/-- What the decoder finds at one instruction boundary: an instruction and the bytes after it, a truncated instruction
(R71), or a refusal (R70). -/
inductive Decoded where
  | instr (i : Instr) (rest : List Byte)
  | truncated
  | refused (r : DecodeRefusal)
  deriving DecidableEq, Repr

/-- Decode the one instruction whose opcode `op` stands at offset `k`, followed by `rest` (the loop body of R68). -/
def decodeOne (k : Nat) (op : Byte) (rest : List Byte) : Decoded :=
  match decodeF0 op with
  | some i => .instr i rest
  | none =>
    match decodeFI op with
    | some mk =>
      match rest with
      | b0 :: b1 :: b2 :: b3 :: rest' => .instr (mk (u32le b0 b1 b2 b3)) rest'
      | _ => .truncated
    | none =>
      if op = opcodeFS then
        match scanString (k + 1) rest with
        | .done text rest' => .instr (.insertString text) rest'
        | .nonAscii j => .refused (.nonAsciiString j)
        | .unterminated => .truncated
      else .refused (.illegalOpcode k op)

/-- The decoder's verdict on a whole byte stream (R68). -/
inductive DecodeResult where
  | program (prog : List Instr) (labels : Machine.LabelTable)
  | refused (r : DecodeRefusal)
  deriving DecidableEq, Repr

/-- The label a `Label` instruction at index `i` declares; other instructions declare none (R69). -/
def declareLabel (labels : Machine.LabelTable) (index : Nat) : Instr → Machine.LabelTable
  | .label id => Machine.LabelTable.declare labels id index
  | _ => labels

/-- The decode loop (R68) from offset `k` with `prog` and `labels` so far. Every instruction takes at least one byte, so
`fuel` at least the number of bytes left never runs out (Laws/Decode.lean). -/
def decodeFrom (imemCap : Option Nat) :
    Nat → Nat → List Byte → List Instr → Machine.LabelTable → DecodeResult
  | 0, _, _, prog, labels => .program prog labels
  | _ + 1, _, [], prog, labels => .program prog labels
  | fuel + 1, k, op :: rest, prog, labels =>
    match decodeOne k op rest with
    | .truncated => .program prog labels
    | .refused r => .refused r
    | .instr i rest' =>
      if imemCap = some prog.length then .refused (.programTooLarge k)
      else
        decodeFrom imemCap fuel (k + (rest.length + 1 - rest'.length)) rest' (prog ++ [i])
          (declareLabel labels prog.length i)

/-- `Decode(B)` with the given `IMEM_CAP` (R68). -/
def decodeProgram (imemCap : Option Nat) (bytes : List Byte) : DecodeResult :=
  decodeFrom imemCap bytes.length 0 bytes [] []

/-- The byte `k` of an operand, the least significant first (R64, R75). -/
def operandByte (imm : Word) (k : Nat) : Byte := imm.extractLsb' (8 * k) 8

/-- An FI instruction: the opcode, then the operand's four bytes, least significant first (R64, R75). -/
def encodeFI (op : Byte) (imm : Word) : List Byte :=
  [op, operandByte imm 0, operandByte imm 1, operandByte imm 2, operandByte imm 3]

/-- The encoder (R75), written from the opcode map R67. -/
def encode : Instr → List Byte
  | .push v => encodeFI 0x01#8 v
  | .pop => [0x02#8]
  | .dump => [0x03#8]
  | .halt => [0x04#8]
  | .dup => [0x05#8]
  | .swap => [0x06#8]
  | .rot => [0x07#8]
  | .ret => [0x0D#8]
  | .add => [0x28#8]
  | .sub => [0x29#8]
  | .mul => [0x2A#8]
  | .div => [0x2B#8]
  | .call target => encodeFI 0x2F#8 target
  | .cmp => [0x43#8]
  | .label id => encodeFI 0x4C#8 id
  | .syscall => [0x53#8]
  | .jumpUnconditional target => encodeFI 0x6A#8 target
  | .jumpEqual target => encodeFI 0x6B#8 target
  | .jumpGreater target => encodeFI 0x6C#8 target
  | .jumpLesser target => encodeFI 0x6D#8 target
  | .jumpNotEqual target => encodeFI 0x6E#8 target
  | .load => [0x8A#8]
  | .store => [0x8B#8]
  | .insertString text => 0x8C#8 :: (text ++ [0x00#8])

/-- A program's encoding: its instructions' encodings in order (R75). -/
def encodeProgram (prog : List Instr) : List Byte := prog.flatMap encode

/-- The labels that a program's `Label`s declare from index `k` on, over `labels` (R69). -/
def declareLabels (labels : Machine.LabelTable) (k : Nat) : List Instr → Machine.LabelTable
  | [] => labels
  | i :: rest => declareLabels (declareLabel labels k i) (k + 1) rest

/-- The label table of a program (R69). -/
def labelsOf (prog : List Instr) : Machine.LabelTable := declareLabels [] 0 prog

/-- The `n` bytes of `w`, least significant first. -/
def bytesOf : Nat → Nat → List Byte
  | 0, _ => []
  | n + 1, w => BitVec.ofNat 8 w :: bytesOf n (w / 256)

/-- The first bytes of an instruction as the opcode table numbers its bits, then five zero bytes: as
many as a fixed-size instruction has, and one ends a string. -/
def tableBytes (nbits w : Nat) : List Byte := bytesOf ((nbits + 7) / 8) (w % 2 ^ nbits) ++ bytesOf 5 0

/-- The instruction the decoder reads from the table's bits (bit 0 the least significant of byte 0). -/
def decodeTableWord (nbits w : Nat) : Option Instr :=
  match tableBytes nbits w with
  | [] => none
  | op :: rest =>
    match decodeOne 0 op rest with
    | .instr i _ => some i
    | .truncated => none
    | .refused _ => none

end Sys2Proof
end

