-- ==== Sys2Proof/Machine/State.lean ====
section
/-! DEFINITION. The state of one engine (10_state.md R20), the run faults (60_exceptions.md R200), and the model's own
stops. -/

namespace Sys2Proof.Machine

/-- The eight fault kinds with their payloads (60_exceptions.md R200). A raised fault is the status `faulted` of a next
state, not a stop of the model (entry 1). -/
inductive RunFault where
  | stackUnderflow
  | outOfBounds
  | unknownLabel (id : Word)
  | unknownSyscall
  | syscallFailure (msg : Text)
  | arithmeticOverflow
  | divideByZero
  | stackOverflow
  deriving DecidableEq, Repr

/-- The run status (10_state.md R29). `faulted` also records the index of the instruction that raised the fault
(60_exceptions.md R200, R203). -/
inductive Status where
  | running
  | completed
  | halted
  | faulted (f : RunFault) (pc : Nat)
  deriving DecidableEq, Repr

/-- The two places where the engine waits (60_exceptions.md R218): a host call whose reply has not come, and the debug
stop after instruction `i`. Entry 3. -/
inductive Hold where
  | host (c : HostCall)
  | console (i : Instr)
  deriving DecidableEq, Repr

/-- The model's own view of the outside world: what the host and the console will answer when next asked, as far as that
is settled (`none` is "nothing has come yet"), oldest first, and the count of free values drawn (entries 4, 6, 16). -/
structure Env where
  hostIn    : List (Option HostReply)
  consoleIn : List (Option ConsoleInput)
  draws     : Nat
  deriving DecidableEq, Repr

/-- What the block has sent through its ports, oldest first (70_reset_and_hazards.md R237): emitted values (P4),
completed host calls with their replies (P3), console traffic (P5). Entry 15. -/
structure Ports where
  emitted : List Word
  hostLog : List (HostRequest × HostReply)
  console : List ConsoleEvent
  deriving DecidableEq, Repr

/-- The machine's state (10_state.md R20), with the parameters (entry 8), the wait, the outside world and the port
transcripts. Both stacks are written top first (entry 10). -/
structure State where
  prog   : List Instr
  labels : LabelTable
  vs     : List Word
  rs     : List Nat
  mem    : Memory
  pc     : Nat
  debug  : Bool
  status : Status
  params : Params
  hold   : Option Hold
  env    : Env
  out    : Ports
  deriving DecidableEq, Repr

/-- The model's own stops of a step; no instruction's meaning answers with one. -/
inductive Fault where
  /-- Raised by `step` on a state whose status is not `running`: the run has ended and no further step exists
  (40_control.md R90, 60_exceptions.md R203). Safe: the machine takes no step either. Entry 12. -/
  | runEnded
  /-- Raised by `step` where `pc > N`, which no run reaches (10_state.md R26, `State.Inv`). Safe. Entry 12. -/
  | pcOutOfRange
  deriving DecidableEq, Repr

/-- What is refused rather than run. -/
inductive Refusal where
  /-- Raised by `exec` for an instruction without a meaning. Safe. No instruction of this model is left so. -/
  | notModelled (mnemonic : String)
  /-- Raised by `boot` for a byte stream the decoder refuses (30_encoding.md R70, 60_exceptions.md R201). Safe: the
  block refuses it too. -/
  | decode (r : DecodeRefusal)
  deriving DecidableEq, Repr

/-- How a step, a meaning or a boot ends. -/
abbrev Out := Host.Outcome State Fault Refusal

/-- The state at construction with no program presented and port P2 not asserted (10_state.md R34, R28; 30_encoding.md
R74). Entry 11 says how a program is loaded; entries 8 and 16 name the model's own values. -/
def State.reset : State :=
  { prog := [], labels := [], vs := [], rs := [], mem := [], pc := 0, debug := false, status := .running,
    params := Params.default, hold := none,
    env := { hostIn := [], consoleIn := [], draws := 0 },
    out := { emitted := [], hostLog := [], console := [] } }

def State.setVs (s : State) (x : List Word) : State := { s with vs := x }
def State.setRs (s : State) (x : List Nat) : State := { s with rs := x }
def State.setMem (s : State) (x : Memory) : State := { s with mem := x }
def State.setPc (s : State) (x : Nat) : State := { s with pc := x }
def State.setStatus (s : State) (x : Status) : State := { s with status := x }
def State.setHold (s : State) (x : Option Hold) : State := { s with hold := x }
def State.setEnv (s : State) (x : Env) : State := { s with env := x }
def State.setOut (s : State) (x : Ports) : State := { s with out := x }

/-- `N`, the program's length (00_scope.md section 5). -/
def State.length (s : State) : Nat := s.prog.length

end Sys2Proof.Machine
end

