-- ==== Sys2Proof/Machine/Flags.lean ====
section
/-! DEFINITION. The block has no flags (10_state.md R27); the comparison code on the value stack plays their role. -/

namespace Sys2Proof.Machine

/-- The comparison code of `Cmp`: 0 equal, 1 greater, 2 lesser, unsigned (41_stack.md R126). -/
def cmpCode (lhs rhs : Word) : Word :=
  if lhs = rhs then 0#32 else if rhs.toNat < lhs.toNat then 1#32 else 2#32

/-- The predicate of each conditional jump on the popped code (40_control.md R93 to R96). -/
def takenEqual (c : Word) : Bool := decide (c = 0#32)
def takenNotEqual (c : Word) : Bool := decide (c ≠ 0#32)
def takenGreater (c : Word) : Bool := decide (c = 1#32)
def takenLesser (c : Word) : Bool := decide (c = 2#32)

end Sys2Proof.Machine
end

