-- ==== Sys2Proof/Machine/Operands.lean ====
section
/-! DEFINITION. Width conversions at the syscall boundary and the cells a Read reply writes. Operands come from the value
stack, the immediate or memory; there are no registers and one addressing mode (10_state.md R22, 20_memory.md R45). -/

namespace Sys2Proof.Machine

/-- A cell going out becomes its low byte (20_memory.md R46). -/
def cellToByte (v : Word) : Byte := v.setWidth 8

/-- A byte coming in is zero-extended (20_memory.md R46). -/
def byteToCell (b : Byte) : Word := b.setWidth 32

/-- The bytes of the cells from `a` up to the first zero cell, searching `fuel` cells; `none` if there is no zero cell
among them (44_syscall.md R174). Each byte is the cell's low byte (20_memory.md R46, D9). -/
def pathFrom (m : Memory) : Nat → Nat → Option (List Byte)
  | _, 0 => none
  | a, fuel + 1 =>
    if Memory.read m a = 0#32 then some []
    else (pathFrom m (a + 1) fuel).map fun rest => cellToByte (Memory.read m a) :: rest

/-- The host's tail choice for `n` cells: keep the cell, or some byte; what the reply leaves unsaid keeps its cell
(44_syscall.md R177, entry 5). -/
def tailCells : Nat → List (Option Byte) → List (Option Word)
  | 0, _ => []
  | n + 1, [] => none :: tailCells n []
  | n + 1, c :: rest => c.map byteToCell :: tailCells n rest

/-- What a successful Read reply does to the `count` cells of its buffer: the bytes read, at most `count` of them, then
the tail choice (44_syscall.md R177, R185). -/
def replyCells (count : Nat) (data : List Byte) (tail : List (Option Byte)) : List (Option Word) :=
  (data.take count).map (fun b => some (byteToCell b)) ++ tailCells (count - (data.take count).length) tail

end Sys2Proof.Machine
end

