-- ==== Sys2Proof/Machine/Ops.lean ====
section
/-! DEFINITION. The shared operations: raising a fault, the two stacks, memory checks, label resolution, the ways an
instruction ends, and the outside world's answers. Each takes what happens next as a function of the new state, so that
a meaning reads as the spec's pseudocode. -/

namespace Sys2Proof.Machine

/-- `raise F`: the rest of the instruction does not happen, and the status becomes `Faulted(F, info, pc)`
(60_exceptions.md R203). Pops already made stay made; nothing of that can be observed (R204, entry 2). There is no
handler and no return from a fault (R209, R210). -/
def raise (f : RunFault) (s : State) : Out := .next (s.setStatus (.faulted f s.pc))

/-- A stack of `n` entries already holds its capacity (00_scope.md R15). Entry 19. -/
def atCapacity (cap : Option Nat) (n : Nat) : Bool :=
  match cap with
  | none => false
  | some c => decide (c ≤ n)

/-- `pop()` on the value stack (00_scope.md R14). -/
def popV (s : State) (k : Word → State → Out) : Out :=
  match s.vs with
  | [] => raise .stackUnderflow s
  | a :: rest => k a (s.setVs rest)

/-- `push(v)` on the value stack (00_scope.md R15). -/
def pushV (v : Word) (s : State) (k : State → Out) : Out :=
  if atCapacity s.params.vstackCap s.vs.length then raise .stackOverflow s else k (s.setVs (v :: s.vs))

/-- `rpop()` on the return-address stack (00_scope.md R14). -/
def popR (s : State) (k : Nat → State → Out) : Out :=
  match s.rs with
  | [] => raise .stackUnderflow s
  | a :: rest => k a (s.setRs rest)

/-- `rpush(n)` on the return-address stack (00_scope.md R15). -/
def pushR (n : Nat) (s : State) (k : State → Out) : Out :=
  if atCapacity s.params.rstackCap s.rs.length then raise .stackOverflow s else k (s.setRs (n :: s.rs))

/-- A range of `n` cells from `a` lies in memory: `a < CAP` and `a + n <= CAP`, without wrap (20_memory.md R44). -/
def inRange (a n : Nat) : Bool := decide (a < Config.cap) && decide (a + n ≤ Config.cap)

/-- The check of a whole range before any access (20_memory.md R44, 00_scope.md R16). -/
def checkRange (a n : Nat) (s : State) (k : State → Out) : Out :=
  if inRange a n then k s else raise .outOfBounds s

/-- The check of one cell index (20_memory.md R44). -/
def checkCell (a : Nat) (s : State) (k : State → Out) : Out :=
  if a < Config.cap then k s else raise .outOfBounds s

/-- `Resolve(target)` (40_control.md R100). -/
def resolve (target : Word) (s : State) (k : Nat → State → Out) : Out :=
  match LabelTable.index? s.labels target with
  | some t => k t s
  | none => raise (.unknownLabel target) s

/-- Append to the console's transcript (port P5). -/
def State.show (s : State) (e : ConsoleEvent) : State :=
  s.setOut { s.out with console := s.out.console ++ [e] }

/-- `Trace(instr, VS, RS)` (60_exceptions.md R215). -/
def State.trace (s : State) (i : Instr) : State := s.show (.trace i s.vs s.rs)

/-- The state after a sequential instruction's effect: `pc + 1`, or, with `debug` set, the trace and the debug stop
before that (40_control.md R90, 60_exceptions.md R215). Entry 3. -/
def advance (i : Instr) (s : State) : State :=
  if s.debug then (s.trace i).setHold (some (.console i)) else s.setPc (s.pc + 1)

/-- The outcome Seq of instruction `i` (40_control.md R90). -/
def sequential (i : Instr) (s : State) : Out := .next (advance i s)

/-- The outcome Transfer(t): no increment and no debug stop (40_control.md R90, 60_exceptions.md R216). -/
def transfer (t : Nat) (s : State) : Out := .next (s.setPc t)

/-- `Emit(v)` on port P4; it never fails (41_stack.md R125). -/
def State.emit (s : State) (v : Word) : State := s.setOut { s.out with emitted := s.out.emitted ++ [v] }

/-- Take the next free value's number. -/
def State.draw (s : State) : State := s.setEnv { s.env with draws := s.env.draws + 1 }

/-- What the host answers to a request now: the next settled answer, or else a draw; either may be that no reply has come
(44_syscall.md R178, R179; entry 4). -/
def hostAnswer (req : HostRequest) (s : State) : Option HostReply × State :=
  match s.env.hostIn with
  | r :: rest => (r, s.setEnv { s.env with hostIn := rest })
  | [] => (Config.hostReply s.env.draws req, s.draw)

/-- What `ReadLine()` gives now: the next settled answer, or else a draw; either may be that no line has come
(60_exceptions.md R215, R218; entry 6). -/
def consoleAnswer (s : State) : Option ConsoleInput × State :=
  match s.env.consoleIn with
  | c :: rest => (c, s.setEnv { s.env with consoleIn := rest })
  | [] => (Config.consoleInput s.env.draws, s.draw)

/-- The instruction at `pc` (40_control.md R90, 20_memory.md R42). -/
def fetch (s : State) : Option Instr := s.prog[s.pc]?

end Sys2Proof.Machine
end

