-- ==== Sys2Proof/Machine/Debug.lean ====
section
/-! DEFINITION. The debug stop (60_exceptions.md R215 to R217), one console input a step (entry 3). -/

namespace Sys2Proof.Machine

/-- The line `mem` followed by newline (R215). -/
def memCommand : Text := [0x6D#8, 0x65#8, 0x6D#8, 0x0A#8]

/-- `Print(mem[0 .. DEBUG_MEM_CELLS-1])` (R215, 00_scope.md R12). -/
def State.printCells (s : State) : State := s.show (.cells (Memory.readRange s.mem 0 Config.debugMemCells))

/-- The prompt after a `mem` command; whether the trace comes again is left open (D18, entry 7). -/
def State.reprompt (s : State) (i : Instr) : State :=
  let s' := s.draw
  s'.setOut (if Config.retrace s.env.draws then (s'.trace i).out else s'.out)

/-- One `ReadLine` of the debug stop after `i`: with no input the wait goes on; `mem` prints and prompts again; any other
line, or the end of input, resumes (R215). -/
def consoleStep (i : Instr) (s : State) : Out :=
  match consoleAnswer s with
  | (none, s) => .next s
  | (some c, s) =>
    if c = .line memCommand then .next (((s.show (.input c)).printCells).reprompt i)
    else .next (((s.show (.input c)).setHold none).setPc (s.pc + 1))

end Sys2Proof.Machine
end

