-- ==== Sys2Proof/Machine/Alu.lean ====
section
/-! DEFINITION. Binary expressions (43_binary_expr.md R155 to R160). -/

namespace Sys2Proof.Machine

/-- The body of R155: exact arithmetic on the operands, and `ArithmeticOverflow` outside u32. -/
def binaryExpr (i : Instr) (op : Int → Int → Int) (s : State) : Out :=
  popV s fun rhs s =>
  popV s fun lhs s =>
  if op lhs.toNat rhs.toNat < 0 ∨ Config.maxValue < op lhs.toNat rhs.toNat then raise .arithmeticOverflow s
  else
    pushV (BitVec.ofInt 32 (op lhs.toNat rhs.toNat)) s fun s =>
    sequential i s

/-- R156. -/
def execAdd (s : State) : Out := binaryExpr .add (fun lhs rhs => lhs + rhs) s

/-- R157: the top is subtracted from the value below it. -/
def execSub (s : State) : Out := binaryExpr .sub (fun lhs rhs => lhs - rhs) s

/-- R158. -/
def execMul (s : State) : Out := binaryExpr .mul (fun lhs rhs => lhs * rhs) s

/-- R159: the quotient is rounded down. -/
def execDiv (s : State) : Out :=
  popV s fun rhs s =>
  popV s fun lhs s =>
  if rhs = 0#32 then raise .divideByZero s
  else
    pushV (BitVec.ofNat 32 (lhs.toNat / rhs.toNat)) s fun s =>
    sequential .div s

end Sys2Proof.Machine
end

