-- ==== Sys2Proof/Machine/Control.lean ====
section
/-! DEFINITION. Control transfer (40_control.md R91 to R99). -/

namespace Sys2Proof.Machine

/-- R91: no effect. -/
def execLabel (id : Word) (s : State) : Out := sequential (.label id) s

/-- R92: nothing is popped. -/
def execJumpUnconditional (target : Word) (s : State) : Out :=
  resolve target s fun t s => transfer t s

/-- The shared body of the conditional jumps (40_control.md section 3): the code is popped either way, the label
resolved only when the jump is taken. -/
def condJump (i : Instr) (taken : Word → Bool) (target : Word) (s : State) : Out :=
  popV s fun c s =>
  if taken c then resolve target s fun t s => transfer t s
  else sequential i s

/-- R93. -/
def execJumpEqual (target : Word) (s : State) : Out := condJump (.jumpEqual target) takenEqual target s

/-- R94. -/
def execJumpNotEqual (target : Word) (s : State) : Out := condJump (.jumpNotEqual target) takenNotEqual target s

/-- R95. -/
def execJumpGreater (target : Word) (s : State) : Out := condJump (.jumpGreater target) takenGreater target s

/-- R96. -/
def execJumpLesser (target : Word) (s : State) : Out := condJump (.jumpLesser target) takenLesser target s

/-- R97. -/
def execCall (target : Word) (s : State) : Out :=
  pushR (s.pc + 1) s fun s =>
  resolve target s fun t s =>
  transfer t s

/-- R98. -/
def execReturn (s : State) : Out :=
  popR s fun a s =>
  if s.length ≤ a then raise .outOfBounds s
  else transfer a s

/-- R99: `pc`, `VS`, `RS` and `mem` are left as they are, and no debug stop follows. -/
def execHalt (s : State) : Out := .next (s.setStatus .halted)

end Sys2Proof.Machine
end

