-- ==== Sys2Proof/Machine/MemOps.lean ====
section
/-! DEFINITION. Memory operations (42_memops.md R140 to R142). -/

namespace Sys2Proof.Machine

/-- R140. -/
def execLoad (s : State) : Out :=
  popV s fun addr s =>
  checkCell addr.toNat s fun s =>
  pushV (Memory.read s.mem addr.toNat) s fun s =>
  sequential .load s

/-- R141: the bound check comes before the value is popped. -/
def execStore (s : State) : Out :=
  popV s fun addr s =>
  checkCell addr.toNat s fun s =>
  popV s fun v s =>
  sequential .store (s.setMem (Memory.write s.mem addr.toNat v))

/-- R142: the terminator is not written (D4). Entries 17 and 18. -/
def execInsertString (text : Text) (s : State) : Out :=
  popV s fun addr s =>
  checkRange addr.toNat text.length s fun s =>
  sequential (.insertString text) (s.setMem (Memory.writeRange s.mem addr.toNat (text.map byteToCell)))

end Sys2Proof.Machine
end

