-- ==== Sys2Proof/Machine/Stack.lean ====
section
/-! DEFINITION. Stack operations (41_stack.md R120 to R126). -/

namespace Sys2Proof.Machine

/-- R120. -/
def execPush (v : Word) (s : State) : Out :=
  pushV v s fun s => sequential (.push v) s

/-- R121. -/
def execPop (s : State) : Out :=
  popV s fun _ s => sequential .pop s

/-- R122: an empty `VS` is no fault. -/
def execDup (s : State) : Out :=
  match s.vs with
  | [] => sequential .dup s
  | _ :: _ =>
    popV s fun a s =>
    pushV a s fun s =>
    pushV a s fun s =>
    sequential .dup s

/-- R123. -/
def execSwap (s : State) : Out :=
  popV s fun a s =>
  popV s fun b s =>
  pushV a s fun s =>
  pushV b s fun s =>
  sequential .swap s

/-- R124: the reversal of the top three (90_conflicts.md C2). -/
def execRot (s : State) : Out :=
  popV s fun a s =>
  popV s fun b s =>
  popV s fun c s =>
  pushV a s fun s =>
  pushV b s fun s =>
  pushV c s fun s =>
  sequential .rot s

/-- R125. -/
def execDump (s : State) : Out :=
  popV s fun a s => sequential .dump (s.emit a)

/-- R126. -/
def execCmp (s : State) : Out :=
  popV s fun rhs s =>
  popV s fun lhs s =>
  pushV (cmpCode lhs rhs) s fun s =>
  sequential .cmp s

end Sys2Proof.Machine
end

