-- ==== Sys2Proof/Machine/Syscall.lean ====
section
/-! DEFINITION. The syscall arbiter (44_syscall.md R170 to R186). -/

namespace Sys2Proof.Machine

/-- What the host sees of a call (R185). -/
def hostRequest : HostCall → HostRequest
  | .read fd _ count => .read fd count
  | .write fd bytes => .write fd bytes
  | .openFile path flags => .openFile path flags Config.openMode
  | .close fd => .close fd

/-- What a successful reply does to memory: Read alone writes, per R177; nothing is pushed (R176). -/
def replyMemory (c : HostCall) (data : List Byte) (tail : List (Option Byte)) (m : Memory) : Memory :=
  match c with
  | .read _ buf count => Memory.writeSome m buf.toNat (replyCells count.toNat data tail)
  | .write _ _ => m
  | .openFile _ _ => m
  | .close _ => m

/-- The end of a call when its reply is there: the wait is over and the exchange is done; a failure raises
`SyscallFailure(msg)` (R178), a success is sequential. -/
def finishCall (c : HostCall) (r : HostReply) (s : State) : Out :=
  let s := (s.setHold none).setOut { s.out with hostLog := s.out.hostLog ++ [(hostRequest c, r)] }
  match r with
  | .fail msg => raise (.syscallFailure msg) s
  | .ok data tail _ => sequential .syscall (s.setMem (replyMemory c data tail s.mem))

/-- Make the host call, or go on waiting for its reply: only the reply lifts the hold (R179). -/
def callHost (c : HostCall) (s : State) : Out :=
  match hostAnswer (hostRequest c) s with
  | (some r, s) => finishCall c r s
  | (none, s) => .next (s.setHold (some (.host c)))

/-- The path of an Open: the cells from `ptr` up to the first zero cell, which must lie in memory (R174). -/
def scanPath (ptr : Nat) (s : State) (k : List Byte → State → Out) : Out :=
  match pathFrom s.mem ptr (Config.cap - ptr) with
  | none => raise .outOfBounds s
  | some path => k path s

/-- R172. -/
def sysRead (s : State) : Out :=
  popV s fun fd s =>
  popV s fun buf s =>
  popV s fun count s =>
  checkRange buf.toNat count.toNat s fun s =>
  callHost (.read fd buf count) s

/-- R173. -/
def sysWrite (s : State) : Out :=
  popV s fun fd s =>
  popV s fun buf s =>
  popV s fun count s =>
  checkRange buf.toNat count.toNat s fun s =>
  callHost (.write fd ((Memory.readRange s.mem buf.toNat count.toNat).map cellToByte)) s

/-- R174. -/
def sysOpen (s : State) : Out :=
  popV s fun ptr s =>
  popV s fun flags s =>
  checkCell ptr.toNat s fun s =>
  scanPath ptr.toNat s fun path s =>
  callHost (.openFile path flags) s

/-- R175. -/
def sysClose (s : State) : Out :=
  popV s fun fd s =>
  callHost (.close fd) s

/-- R170, R171. -/
def execSyscall (s : State) : Out :=
  popV s fun code s =>
  match code.toNat with
  | 0 => sysRead s
  | 1 => sysWrite s
  | 2 => sysOpen s
  | 3 => sysClose s
  | _ => raise .unknownSyscall s

end Sys2Proof.Machine
end

