-- ==== Sys2Proof/Machine/Dispatch.lean ====
section
/-! DEFINITION. The dispatch: one arm per instruction. -/

namespace Sys2Proof.Machine

def exec (i : Instr) (s : State) : Host.Outcome State Fault Refusal :=
  match i with
  | .push v => Sys2Proof.Machine.execPush v s
  | .pop => Sys2Proof.Machine.execPop s
  | .dump => Sys2Proof.Machine.execDump s
  | .halt => Sys2Proof.Machine.execHalt s
  | .dup => Sys2Proof.Machine.execDup s
  | .swap => Sys2Proof.Machine.execSwap s
  | .rot => Sys2Proof.Machine.execRot s
  | .ret => Sys2Proof.Machine.execReturn s
  | .add => Sys2Proof.Machine.execAdd s
  | .sub => Sys2Proof.Machine.execSub s
  | .mul => Sys2Proof.Machine.execMul s
  | .div => Sys2Proof.Machine.execDiv s
  | .call target => Sys2Proof.Machine.execCall target s
  | .cmp => Sys2Proof.Machine.execCmp s
  | .label id => Sys2Proof.Machine.execLabel id s
  | .syscall => Sys2Proof.Machine.execSyscall s
  | .jumpUnconditional target => Sys2Proof.Machine.execJumpUnconditional target s
  | .jumpEqual target => Sys2Proof.Machine.execJumpEqual target s
  | .jumpGreater target => Sys2Proof.Machine.execJumpGreater target s
  | .jumpLesser target => Sys2Proof.Machine.execJumpLesser target s
  | .jumpNotEqual target => Sys2Proof.Machine.execJumpNotEqual target s
  | .load => Sys2Proof.Machine.execLoad s
  | .store => Sys2Proof.Machine.execStore s
  | .insertString text => Sys2Proof.Machine.execInsertString text s

end Sys2Proof.Machine
end

