-- ==== Sys2Proof/Machine/Step.lean ====
section
/-! DEFINITION. One step of the run loop (40_control.md R90). -/

namespace Sys2Proof.Machine

/-- A step while a wait lasts: ask the host again, or read the console (60_exceptions.md R218). -/
def resume (h : Hold) (s : State) : Out :=
  match h with
  | .host c => callHost c s
  | .console i => consoleStep i s

/-- A step at an instruction boundary: the end of the program completes the run, otherwise the instruction at `pc`
executes (40_control.md R90). -/
def dispatch (s : State) : Out :=
  if s.pc = s.length then .next (s.setStatus .completed)
  else
    match fetch s with
    | some i => exec i s
    | none => .fault .pcOutOfRange

/-- One step. The engine steps only while `status = Running` (40_control.md R90, 10_state.md R29). -/
def step (s : State) : Host.Outcome State Fault Refusal :=
  match s.status with
  | .running =>
    match s.hold with
    | some h => resume h s
    | none => dispatch s
  | .completed => .fault .runEnded
  | .halted => .fault .runEnded
  | .faulted _ _ => .fault .runEnded

/-- `s` with the one-instruction program of the opcode table's bits loaded and about to run: the decoder's output for
it, `pc = 0`, running, no wait (70_reset_and_hazards.md R230; entry 11). -/
def State.withFetchWord (s : State) (nbits w : Nat) : State :=
  { s with
    prog := (decodeTableWord nbits w).toList, labels := labelsOf (decodeTableWord nbits w).toList, pc := 0,
    status := .running, hold := none }

end Sys2Proof.Machine
end

