-- ==== Sys2Proof/Machine/Boot.lean ====
section
/-! DEFINITION. Construction, decode and start of a run (70_reset_and_hazards.md R230). -/

namespace Sys2Proof.Machine

/-- The state at the start of a run of a decoded program (10_state.md R34). -/
def State.start (params : Params) (debug : Bool) (prog : List Instr) (labels : LabelTable) : State :=
  { State.reset with params := params, debug := debug, prog := prog, labels := labels }

/-- Phases 1 to 3 of a run: the byte stream of port P1 is decoded whole, with `debug` from port P2; a refusal ends the
run and nothing executes (R230, 30_encoding.md R70). -/
def boot (params : Params) (debug : Bool) (bytes : List Byte) : Out :=
  match decodeProgram params.imemCap bytes with
  | .program prog labels => .next (State.start params debug prog labels)
  | .refused r => .refused (.decode r)

end Sys2Proof.Machine
end

