-- ==== Sys2Proof/Machine/Result.lean ====
section
/-! DEFINITION. The result port P6 and what is observable at the end of a run (10_state.md R36, 70_reset_and_hazards.md
R237), fault and refusal codes (60_exceptions.md R200, R201), exit statuses (R207). -/

namespace Sys2Proof.Machine

/-- What port P6 carries (10_state.md R35, R36). A fault shows its kind and payload; the index of the faulting instruction
stays in `Status` and is not observable (60_exceptions.md R204). -/
inductive RunResult where
  | refused (r : DecodeRefusal)
  | completed
  | halted
  | faulted (f : RunFault)
  deriving DecidableEq, Repr

/-- The result of a run that has ended (R29, R36). -/
def Status.result : Status → Option RunResult
  | .running => none
  | .completed => some .completed
  | .halted => some .halted
  | .faulted f _ => some (.faulted f)

/-- The numeric fault codes (R200). -/
def RunFault.code : RunFault → Nat
  | .stackUnderflow => 1
  | .outOfBounds => 2
  | .unknownLabel _ => 3
  | .unknownSyscall => 4
  | .syscallFailure _ => 5
  | .arithmeticOverflow => 6
  | .divideByZero => 7
  | .stackOverflow => 8

/-- The numeric refusal codes (R201). -/
def refusalCode : DecodeRefusal → Nat
  | .illegalOpcode _ _ => 101
  | .nonAsciiString _ => 102
  | .programTooLarge _ => 103

/-- The exit status of a fault (R207, R13). -/
def RunFault.exitStatus : RunFault → Nat
  | .stackUnderflow => 1
  | .outOfBounds => 1
  | .unknownLabel _ => 1
  | .unknownSyscall => 1
  | .syscallFailure _ => 1
  | .arithmeticOverflow => Config.extraFaultExitStatus
  | .divideByZero => Config.extraFaultExitStatus
  | .stackOverflow => Config.extraFaultExitStatus

/-- The exit status a result maps to (R207). -/
def RunResult.exitStatus : RunResult → Nat
  | .refused _ => 1
  | .completed => 0
  | .halted => 0
  | .faulted f => f.exitStatus

/-- What is observable at the end of a run (R237): the result, the emitted values, the host calls with their replies,
and, only after `Completed` or `Halted`, the final `VS`, `RS` and `mem`. -/
structure Observation where
  result  : RunResult
  emitted : List Word
  hostLog : List (HostRequest × HostReply)
  final   : Option (List Word × List Nat × Memory)
  deriving DecidableEq, Repr

/-- The final `VS`, `RS` and `mem`, where they are observable (R204, R237). -/
def State.final (s : State) : Option (List Word × List Nat × Memory) :=
  match s.status with
  | .running => none
  | .completed => some (s.vs, s.rs, s.mem)
  | .halted => some (s.vs, s.rs, s.mem)
  | .faulted _ _ => none

/-- The observation of an ended run; none while it runs (R237). -/
def State.observe (s : State) : Option Observation :=
  s.status.result.map fun r =>
    { result := r, emitted := s.out.emitted, hostLog := s.out.hostLog, final := s.final }

/-- The observation of a boot that the decoder refused: only the result (R201, R230). -/
def observeRefusal (r : DecodeRefusal) : Observation :=
  { result := .refused r, emitted := [], hostLog := [], final := none }

end Sys2Proof.Machine
end

