-- ==== Sys2Proof/Safety.lean ====
section
/-! DEFINITION. What claims about runs are stated in: answers, faults, and the invariant of every run. -/

namespace Sys2Proof.Machine

/-- `o` answers a next state, and that state meets `P`. -/
def Answers (o : Out) (P : State → Prop) : Prop := ∃ t, o = .next t ∧ P t

/-- The instruction run at `s` raises `f`: the status records it with the instruction's index (60_exceptions.md R203),
and nothing more has left through a port. -/
def Faults (f : RunFault) (s : State) (o : Out) : Prop :=
  Answers o fun t => t.status = .faulted f s.pc ∧ t.out = s.out

/-- A stack or store of `n` entries is within its capacity (00_scope.md R10, R11). -/
def fits (cap : Option Nat) (n : Nat) : Bool :=
  match cap with
  | none => true
  | some c => decide (n ≤ c)

@[simp] abbrev Fits (cap : Option Nat) (n : Nat) : Prop := fits cap n = true

/-- There is room for one more entry (00_scope.md R15). -/
@[simp] abbrev HasRoom (cap : Option Nat) (n : Nat) : Prop := atCapacity cap n = false

/-- The status is `Faulted`; what the engine then holds is not observable (60_exceptions.md R204). -/
def Status.isFaulted : Status → Bool
  | .running => false
  | .completed => false
  | .halted => false
  | .faulted _ _ => true

/-- The buffer of a pending Read lies in memory (44_syscall.md R172). -/
def callInRange : HostCall → Bool
  | .read _ buf count => inRange buf.toNat count.toNat
  | .write _ _ => true
  | .openFile _ _ => true
  | .close _ => true

/-- The cells instruction `i` stores to, from the operands on the value stack (20_memory.md R49): the popped address of
`Store`, the `len(text)` cells from the popped address of `InsertString`, the buffer of a `Syscall` Read. -/
def storesTo (i : Instr) (vs : List Word) (a : Nat) : Bool :=
  match i with
  | .push _ => false
  | .pop => false
  | .dump => false
  | .halt => false
  | .dup => false
  | .swap => false
  | .rot => false
  | .ret => false
  | .add => false
  | .sub => false
  | .mul => false
  | .div => false
  | .call _ => false
  | .cmp => false
  | .label _ => false
  | .syscall =>
    match vs with
    | code :: _ :: buf :: count :: _ =>
      decide (code = 0#32) && decide (buf.toNat ≤ a) && decide (a < buf.toNat + count.toNat)
    | _ => false
  | .jumpUnconditional _ => false
  | .jumpEqual _ => false
  | .jumpGreater _ => false
  | .jumpLesser _ => false
  | .jumpNotEqual _ => false
  | .load => false
  | .store =>
    match vs with
    | [] => false
    | addr :: _ => decide (a = addr.toNat)
  | .insertString text =>
    match vs with
    | [] => false
    | addr :: _ => decide (addr.toNat ≤ a) && decide (a < addr.toNat + text.length)

/-- The byte ranges that are no opcodes (30_encoding.md R77). -/
def illegalRanges : List (Nat × Nat) :=
  [(0x00, 0x00), (0x08, 0x0C), (0x0E, 0x27), (0x2C, 0x2E), (0x30, 0x42), (0x44, 0x4B), (0x4D, 0x52), (0x54, 0x69),
    (0x6F, 0x89), (0x8D, 0xFF)]

/-- `op` is none of the 24 opcodes (R77). -/
def illegalOpcode (op : Byte) : Bool := illegalRanges.any fun r => decide (r.1 ≤ op.toNat) && decide (op.toNat ≤ r.2)

/-- What holds at the start of every run and after every step. -/
structure State.Inv (s : State) : Prop where
  /-- Memory is in canonical form: cells 0 to 9999 only (R25). -/
  mem_wf : Memory.wf s.mem = true
  /-- The label table is the one the decoder makes of the program (R31, R69). -/
  labels_decoded : s.labels = labelsOf s.prog
  /-- Every instruction is one a byte stream spells (R30, R65). -/
  prog_wf : ∀ i ∈ s.prog, i.wf = true
  /-- `pc` lies in `[0, N]` (R26). -/
  pc_le : s.pc ≤ s.length
  /-- Every return address was pushed as `pc + 1 <= N` (R98). -/
  rs_le : ∀ a ∈ s.rs, a ≤ s.length
  /-- The stacks and the program are within their capacities (R10, R11). -/
  vs_fits : Fits s.params.vstackCap s.vs.length
  rs_fits : Fits s.params.rstackCap s.rs.length
  prog_fits : Fits s.params.imemCap s.length
  /-- A wait for the host is at a `Syscall` of a running engine (R218). -/
  hold_host : ∀ c, s.hold = some (.host c) →
    s.status = .running ∧ fetch s = some .syscall ∧ callInRange c = true
  /-- A debug stop is at the instruction just executed, with `debug` set (R215). -/
  hold_console : ∀ i, s.hold = some (.console i) →
    s.status = .running ∧ fetch s = some i ∧ s.debug = true
  /-- A completed run stands at `N` (R90). -/
  completed_at_end : s.status = .completed → s.pc = s.length
  /-- A halted run stands at a `Halt` (R99). -/
  halted_at_halt : s.status = .halted → fetch s = some .halt
  /-- A fault is recorded with the index of an instruction of the program (R200). -/
  faulted_at : ∀ f p, s.status = .faulted f p → p < s.length

end Sys2Proof.Machine
end

