-- ==== Sys2Proof/Certificates/Slice0/Obligations.lean ====
section
/-! DEFINITION. The statements, from the spec's numbered rules. Stacks are written top first. -/

open Sys2Proof Sys2Proof.Machine

/-! ## The codec and the start of a run -/

/-- Words written out from the spec's encodings (30_encoding.md R63 to R65, R67) decode to what they stand for. -/
def Obligations.WordsWrittenFromTheTableDecode : Prop :=
  decodeOne 0 0x01#8 [0x78#8, 0x56#8, 0x34#8, 0x12#8] = .instr (.push 0x12345678#32) [] ∧
  decodeOne 0 0x07#8 [0x06#8] = .instr .rot [0x06#8] ∧
  decodeOne 0 0x2B#8 [] = .instr .div [] ∧
  decodeOne 0 0x6E#8 [0xE7#8, 0x03#8, 0x00#8, 0x00#8, 0x04#8] = .instr (.jumpNotEqual 999#32) [0x04#8] ∧
  decodeOne 0 0x53#8 [] = .instr .syscall [] ∧
  decodeOne 0 0x8C#8 [0x48#8, 0x69#8, 0x00#8] = .instr (.insertString [0x48#8, 0x69#8]) []

/-- 30_encoding.md R76, with strings and repeated ids, the extension that is the spec's own inference: decoding the encoding of a program of well-formed instructions gives the program,
and its table maps each declared id to the index of its last `Label`. -/
def Obligations.DecodingAnEncodedProgramGivesItBack : Prop :=
  ∀ prog : List Instr, (∀ i ∈ prog, i.wf = true) →
    decodeProgram none (encodeProgram prog) = .program prog (labelsOf prog) ∧
    ∀ (id : Word) (k : Nat), LabelTable.index? (labelsOf prog) id = some k ↔
      prog[k]? = some (.label id) ∧ ∀ j, k < j → prog[j]? ≠ some (.label id)

/-- R71: a partial instruction at the end is dropped without error, and the instructions before it form the program; an
F0 opcode at the last offset is complete. -/
def Obligations.TruncatedLastInstructionIsDropped : Prop :=
  ∀ prog : List Instr, (∀ i ∈ prog, i.wf = true) →
    (∀ (i : Instr) (n : Nat), i.wf = true → n < (encode i).length →
      decodeProgram none (encodeProgram prog ++ (encode i).take n) = .program prog (labelsOf prog)) ∧
    (∀ (op : Byte) (i : Instr), decodeF0 op = some i →
      decodeProgram none (encodeProgram prog ++ [op]) = .program (prog ++ [i]) (labelsOf (prog ++ [i])))

/-- R77: exactly the 232 bytes of the ten ranges are refused at an instruction boundary, and with them the whole program;
a byte inside an operand is data. -/
def Obligations.NonOpcodeBytesRefuseTheProgram : Prop :=
  (illegalRanges.map fun r => r.2 + 1 - r.1).sum = 232 ∧
  (∀ (op : Byte) (k : Nat) (rest : List Byte),
    decodeOne k op rest = .refused (.illegalOpcode k op) ↔ illegalOpcode op = true) ∧
  (∀ (prog : List Instr) (op : Byte) (tail : List Byte), (∀ i ∈ prog, i.wf = true) → illegalOpcode op = true →
    decodeProgram none (encodeProgram prog ++ op :: tail) =
      .refused (.illegalOpcode (encodeProgram prog).length op)) ∧
  (∀ (op : Byte) (mk : Word → Instr) (b0 b1 b2 b3 : Byte) (k : Nat) (rest : List Byte), decodeFI op = some mk →
    decodeOne k op (b0 :: b1 :: b2 :: b3 :: rest) = .instr (mk (u32le b0 b1 b2 b3)) rest) ∧
  (∀ (text : Text) (k : Nat) (rest : List Byte), text.all stringByteOk = true →
    decodeOne k 0x8C#8 (text ++ 0x00#8 :: rest) = .instr (.insertString text) rest)

/-- R70: the three refusals, each with the byte offset; the boot then has no state, so nothing executes.
`ProgramTooLarge` never happens with the unbounded `IMEM_CAP`. -/
def Obligations.RefusedStreamsNameTheirOffset : Prop :=
  (∀ (p : Params) (debug : Bool) (prog : List Instr) (tail : List Byte),
    (∀ i ∈ prog, i.wf = true) → Fits p.imemCap prog.length →
    (∀ op : Byte, illegalOpcode op = true →
      boot p debug (encodeProgram prog ++ op :: tail) =
        .refused (.decode (.illegalOpcode (encodeProgram prog).length op))) ∧
    (∀ (text : Text) (b : Byte), text.all stringByteOk = true → 128 ≤ b.toNat →
      boot p debug (encodeProgram prog ++ 0x8C#8 :: (text ++ b :: tail)) =
        .refused (.decode (.nonAsciiString ((encodeProgram prog).length + 1 + text.length)))) ∧
    (∀ i : Instr, i.wf = true → p.imemCap = some prog.length →
      boot p debug (encodeProgram prog ++ (encode i ++ tail)) =
        .refused (.decode (.programTooLarge (encodeProgram prog).length)))) ∧
  (∀ (p : Params) (debug : Bool) (bytes : List Byte) (k : Nat), p.imemCap = none →
    boot p debug bytes ≠ .refused (.decode (.programTooLarge k)))

/-- R34: the state at construction. -/
def Obligations.StartOfARun : Prop :=
  ∀ (p : Params) (debug : Bool) (bytes : List Byte) (prog : List Instr) (labels : LabelTable),
    decodeProgram p.imemCap bytes = .program prog labels →
    Answers (boot p debug bytes) fun s =>
      (∀ a, a < Config.cap → Memory.read s.mem a = 0#32) ∧ s.debug = debug ∧ s.prog = prog ∧ s.labels = labels ∧
      s.vs = [] ∧ s.rs = [] ∧ s.pc = 0 ∧ s.status = .running

/-- The spec's own inference from R68 and R90 (30_encoding.md R74): the empty stream is the empty program, and its run ends `Completed` at once. -/
def Obligations.EmptyProgramCompletesAtOnce : Prop :=
  ∀ (p : Params) (debug : Bool), decodeProgram p.imemCap [] = .program [] [] ∧
    Answers (boot p debug []) fun s => Answers (step s) fun t => t.status = .completed ∧ t.pc = 0

/-- The first instruction the decoder reads is the first the engine executes (70_reset_and_hazards.md R231, 40_control.md
R90). -/
def Obligations.FirstDecodedInstructionRunsFirst : Prop :=
  ∀ (p : Params) (debug : Bool) (op : Byte) (rest rest' : List Byte) (i : Instr) (s : State),
    decodeOne 0 op rest = .instr i rest' → boot p debug (op :: rest) = .next s →
    fetch s = some i ∧ step s = exec i s

/-! ## The run loop -/

/-- A step at an instruction boundary of a running engine is the meaning of the instruction at `pc`, and at `pc = N` it
completes the run (40_control.md R90). -/
def Obligations.StepRunsTheInstructionAtPc : Prop :=
  ∀ s : State, s.status = .running → s.hold = none →
    (∀ i, s.pc < s.length → s.prog[s.pc]? = some i → step s = exec i s) ∧
    (s.pc = s.length → step s = .next (s.setStatus .completed))

/-- An ended run takes no step (10_state.md R29, 60_exceptions.md R203; the stop's name is the model's, entry 12). -/
def Obligations.EndedRunTakesNoStep : Prop :=
  ∀ s : State, s.status ≠ .running → step s = .fault .runEnded

/-- The invariant holds right after reset. -/
def Obligations.ResetMeetsTheInvariant : Prop := State.Inv State.reset

/-- Every boot that is not refused starts a run in the invariant. -/
def Obligations.BootMeetsTheInvariant : Prop :=
  ∀ (p : Params) (debug : Bool) (bytes : List Byte) (s : State), boot p debug bytes = .next s → s.Inv

/-- Every step keeps the invariant: `pc` in `[0, N]` (R26), return addresses at most `N` (R98), memory in canonical form,
the decoder's label table (R31), capacities (R10, R11), and waits only where R218 allows them. -/
def Obligations.StepKeepsTheInvariant : Prop :=
  ∀ s t : State, s.Inv → step s = .next t → t.Inv

/-- Under the invariant a running engine always takes a step to a next state: nothing it can execute stops the model
(40_control.md R90). A spec fault is a next state (entry 1), and so is a wait: that a step of the model passes while the
host or the console has not answered, where R179 gives the engine no step, is the model's choice (entry 3). -/
def Obligations.RunningEngineAlwaysSteps : Prop :=
  ∀ s : State, s.Inv → s.status = .running → ∃ t, step s = .next t

/-- No meaning stops: every instruction answers a next state in every state (40_control.md R90; 60_exceptions.md R211; a
spec fault is a next state too, entry 1). A `Syscall` whose reply has not come answers a next state because the wait is a
state of the model, where 44_syscall.md R179 gives the engine no step: the model's choice (entry 3). -/
def Obligations.EveryMeaningAnswersANextState : Prop :=
  ∀ (i : Instr) (s : State), ∃ t, exec i s = .next t

/-- No step changes the program, the label table, the debug flag or the parameters (10_state.md R28, R30, R31). -/
def Obligations.StepKeepsProgramLabelsAndDebug : Prop :=
  ∀ s t : State, step s = .next t →
    t.prog = s.prog ∧ t.labels = s.labels ∧ t.debug = s.debug ∧ t.params = s.params

/-! ## Faults -/

/-- An instruction that raises a fault records its own index, ends the run, writes no memory cell, emits nothing and has
no debug stop (60_exceptions.md R203, R204, R216; the form of a fault and the stop's name are the model's, entries 1 and
12; that no cell is written is R204's own sentence, and what a faulted engine holds is not observable, entry 2). -/
def Obligations.RaisedFaultEndsTheRun : Prop :=
  ∀ (i : Instr) (s t : State) (f : RunFault) (p : Nat),
    s.status = .running → s.hold = none → exec i s = .next t → t.status = .faulted f p →
    p = s.pc ∧ step t = .fault .runEnded ∧ (∀ a, Memory.read t.mem a = Memory.read s.mem a) ∧
    t.out.emitted = s.out.emitted ∧ t.out.console = s.out.console ∧ t.hold = none

/-- 60_exceptions.md R216: no debug stop follows a taken jump, a `Call`, a `Return`, a `Halt` or a fault; a conditional jump
that is not taken is followed by one. How that stop stands in the state, the step ending after the trace with `pc` not yet
moved, is the model's form (entry 3). -/
def Obligations.NoDebugStopAfterControlTransfer : Prop :=
  (∀ (s : State) (target : Word) (t : Nat), LabelTable.index? s.labels target = some t →
    exec (.jumpUnconditional target) s = .next (s.setPc t) ∧
    (∀ (c : Word) (rest : List Word), s.vs = c :: rest →
      (c = 0#32 → exec (.jumpEqual target) s = .next ((s.setVs rest).setPc t)) ∧
      (c ≠ 0#32 → exec (.jumpNotEqual target) s = .next ((s.setVs rest).setPc t)) ∧
      (c = 1#32 → exec (.jumpGreater target) s = .next ((s.setVs rest).setPc t)) ∧
      (c = 2#32 → exec (.jumpLesser target) s = .next ((s.setVs rest).setPc t))) ∧
    (HasRoom s.params.rstackCap s.rs.length →
      exec (.call target) s = .next ((s.setRs ((s.pc + 1) :: s.rs)).setPc t))) ∧
  (∀ (s : State) (a : Nat) (rest : List Nat), s.rs = a :: rest → a < s.length →
    exec .ret s = .next ((s.setRs rest).setPc a)) ∧
  (∀ s : State, exec .halt s = .next (s.setStatus .halted)) ∧
  (∀ (i : Instr) (s t : State) (f : RunFault) (p : Nat),
    s.status = .running → s.hold = none → exec i s = .next t → t.status = .faulted f p →
    t.hold = none ∧ t.out.console = s.out.console) ∧
  (∀ (s : State) (target c : Word) (rest : List Word), s.vs = c :: rest → s.debug = true →
    (c ≠ 0#32 → exec (.jumpEqual target) s =
      .next (((s.setVs rest).trace (.jumpEqual target)).setHold (some (.console (.jumpEqual target))))) ∧
    (c = 0#32 → exec (.jumpNotEqual target) s =
      .next (((s.setVs rest).trace (.jumpNotEqual target)).setHold (some (.console (.jumpNotEqual target))))) ∧
    (c ≠ 1#32 → exec (.jumpGreater target) s =
      .next (((s.setVs rest).trace (.jumpGreater target)).setHold (some (.console (.jumpGreater target))))) ∧
    (c ≠ 2#32 → exec (.jumpLesser target) s =
      .next (((s.setVs rest).trace (.jumpLesser target)).setHold (some (.console (.jumpLesser target))))))

/-- The fault codes, refusal codes and exit statuses (60_exceptions.md R200, R201, R207): statuses 0 and 1 as listed, and
one non-zero status, otherwise open, for the three faults the source does not list. -/
def Obligations.CodesAndExitStatuses : Prop :=
  (∀ (id : Word) (msg : Text), [RunFault.stackUnderflow, .outOfBounds, .unknownLabel id, .unknownSyscall,
    .syscallFailure msg, .arithmeticOverflow, .divideByZero, .stackOverflow].map RunFault.code =
      [1, 2, 3, 4, 5, 6, 7, 8]) ∧
  (∀ (k : Nat) (b : Byte), [DecodeRefusal.illegalOpcode k b, .nonAsciiString k, .programTooLarge k].map refusalCode =
    [101, 102, 103]) ∧
  RunResult.exitStatus .completed = 0 ∧ RunResult.exitStatus .halted = 0 ∧
  (∀ r, RunResult.exitStatus (.refused r) = 1) ∧
  RunResult.exitStatus (.faulted .stackUnderflow) = 1 ∧ RunResult.exitStatus (.faulted .outOfBounds) = 1 ∧
  RunResult.exitStatus (.faulted .unknownSyscall) = 1 ∧
  (∀ id, RunResult.exitStatus (.faulted (.unknownLabel id)) = 1) ∧
  (∀ msg, RunResult.exitStatus (.faulted (.syscallFailure msg)) = 1) ∧
  ∃ n, n ≠ 0 ∧ RunResult.exitStatus (.faulted .arithmeticOverflow) = n ∧
    RunResult.exitStatus (.faulted .divideByZero) = n ∧ RunResult.exitStatus (.faulted .stackOverflow) = n

/-- What is observable at the end of a run (70_reset_and_hazards.md R237): the result, the emitted values, the host calls
with their replies, and the final stacks and memory only after `Completed` or `Halted`; of a fault its kind and payload,
and not its index (R204). -/
def Obligations.EndOfRunObservation : Prop :=
  ∀ s : State,
    (s.status = .running → s.observe = none) ∧
    (s.status = .completed → s.observe = some ⟨.completed, s.out.emitted, s.out.hostLog, some (s.vs, s.rs, s.mem)⟩) ∧
    (s.status = .halted → s.observe = some ⟨.halted, s.out.emitted, s.out.hostLog, some (s.vs, s.rs, s.mem)⟩) ∧
    (∀ f p, s.status = .faulted f p → s.observe = some ⟨.faulted f, s.out.emitted, s.out.hostLog, none⟩)

/-! ## Stack operations. `advance i s` is the state after a sequential instruction's effect `s`. -/

/-- The sequential end (40_control.md R90): without `debug`, `pc + 1` and nothing else; with it, the trace and the stop
come first (`DebugStopProtocol`). -/
def Obligations.SequentialEndAdvancesPc : Prop :=
  ∀ (i : Instr) (s : State), s.debug = false →
    sequential i s = .next (advance i s) ∧ advance i s = s.setPc (s.pc + 1)

/-- R120. -/
def Obligations.PushPushesItsLiteral : Prop :=
  ∀ (v : Word) (s : State),
    encode (.push v) = encodeFI 0x01#8 v ∧
    (HasRoom s.params.vstackCap s.vs.length → exec (.push v) s = .next (advance (.push v) (s.setVs (v :: s.vs)))) ∧
    (¬ HasRoom s.params.vstackCap s.vs.length → Faults .stackOverflow s (exec (.push v) s))

/-- R121. -/
def Obligations.PopDropsTheTop : Prop :=
  encode .pop = [0x02#8] ∧
  ∀ s : State,
    (∀ a rest, s.vs = a :: rest → exec .pop s = .next (advance .pop (s.setVs rest))) ∧
    (s.vs = [] → Faults .stackUnderflow s (exec .pop s))

/-- R122. -/
def Obligations.DupDuplicatesTheTop : Prop :=
  encode .dup = [0x05#8] ∧
  ∀ s : State,
    (s.vs = [] → exec .dup s = .next (advance .dup s)) ∧
    (∀ a rest, s.vs = a :: rest → HasRoom s.params.vstackCap s.vs.length →
      exec .dup s = .next (advance .dup (s.setVs (a :: a :: rest)))) ∧
    (s.vs ≠ [] → ¬ HasRoom s.params.vstackCap s.vs.length → Faults .stackOverflow s (exec .dup s))

/-- The top two exchanged (41_stack.md R123, whose underflow case is the spec's own inference from R14). -/
def Obligations.SwapExchangesTheTopTwo : Prop :=
  encode .swap = [0x06#8] ∧
  ∀ s : State, Fits s.params.vstackCap s.vs.length →
    (∀ a b rest, s.vs = a :: b :: rest → exec .swap s = .next (advance .swap (s.setVs (b :: a :: rest)))) ∧
    (s.vs.length < 2 → Faults .stackUnderflow s (exec .swap s))

/-- The top three reversed; applied twice, the stack is restored (41_stack.md R124, whose underflow case and this law are
the spec's own inferences). -/
def Obligations.RotReversesTheTopThree : Prop :=
  encode .rot = [0x07#8] ∧
  ∀ s : State, Fits s.params.vstackCap s.vs.length →
    (∀ a b c rest, s.vs = a :: b :: c :: rest →
      exec .rot s = .next (advance .rot (s.setVs (c :: b :: a :: rest))) ∧
      Answers (exec .rot s) fun t => Answers (exec .rot t) fun u => u.vs = s.vs) ∧
    (s.vs.length < 3 → Faults .stackUnderflow s (exec .rot s))

/-- R125. -/
def Obligations.DumpEmitsTheTop : Prop :=
  encode .dump = [0x03#8] ∧
  ∀ s : State,
    (∀ a rest, s.vs = a :: rest →
      exec .dump s = .next (advance .dump
        ((s.setVs rest).setOut { s.out with emitted := s.out.emitted ++ [a] }))) ∧
    (s.vs = [] → Faults .stackUnderflow s (exec .dump s))

/-- R126: the comparison is unsigned and the code is 0, 1 or 2. -/
def Obligations.CmpPushesTheComparisonCode : Prop :=
  encode .cmp = [0x43#8] ∧
  ∀ s : State, Fits s.params.vstackCap s.vs.length →
    (∀ rhs lhs rest, s.vs = rhs :: lhs :: rest →
      (lhs = rhs → exec .cmp s = .next (advance .cmp (s.setVs (0#32 :: rest)))) ∧
      (rhs.toNat < lhs.toNat → exec .cmp s = .next (advance .cmp (s.setVs (1#32 :: rest)))) ∧
      (lhs.toNat < rhs.toNat → exec .cmp s = .next (advance .cmp (s.setVs (2#32 :: rest))))) ∧
    (s.vs.length < 2 → Faults .stackUnderflow s (exec .cmp s))

/-! ## Memory operations -/

/-- R140. -/
def Obligations.LoadPushesTheCell : Prop :=
  encode .load = [0x8A#8] ∧
  ∀ s : State,
    (∀ addr rest, s.vs = addr :: rest →
      (addr.toNat < Config.cap → Fits s.params.vstackCap s.vs.length →
        exec .load s = .next (advance .load (s.setVs (Memory.read s.mem addr.toNat :: rest)))) ∧
      (Config.cap ≤ addr.toNat → Faults .outOfBounds s (exec .load s))) ∧
    (s.vs = [] → Faults .stackUnderflow s (exec .load s))

/-- R141: the cell is written, every other cell keeps its value, and the bound is checked before the value is popped. -/
def Obligations.StoreWritesTheCell : Prop :=
  encode .store = [0x8B#8] ∧
  ∀ s : State, Memory.wf s.mem = true →
    (∀ addr v rest, s.vs = addr :: v :: rest → addr.toNat < Config.cap →
      ∃ m, exec .store s = .next (advance .store ((s.setVs rest).setMem m)) ∧
        Memory.read m addr.toNat = v ∧ ∀ a, a ≠ addr.toNat → Memory.read m a = Memory.read s.mem a) ∧
    (∀ addr rest, s.vs = addr :: rest → Config.cap ≤ addr.toNat → Faults .outOfBounds s (exec .store s)) ∧
    (∀ addr, s.vs = [addr] → addr.toNat < Config.cap → Faults .stackUnderflow s (exec .store s)) ∧
    (s.vs = [] → Faults .stackUnderflow s (exec .store s))

/-- R142: the text's bytes zero-extended into consecutive cells, no terminator, the whole range checked first. -/
def Obligations.InsertStringWritesItsText : Prop :=
  ∀ (text : Text) (s : State), Memory.wf s.mem = true →
    encode (.insertString text) = 0x8C#8 :: (text ++ [0x00#8]) ∧
    (∀ addr rest, s.vs = addr :: rest →
      (addr.toNat < Config.cap → addr.toNat + text.length ≤ Config.cap →
        ∃ m, exec (.insertString text) s = .next (advance (.insertString text) ((s.setVs rest).setMem m)) ∧
          (∀ (i : Nat) (b : Byte), text[i]? = some b → Memory.read m (addr.toNat + i) = b.setWidth 32) ∧
          (∀ a, (a < addr.toNat ∨ addr.toNat + text.length ≤ a) → Memory.read m a = Memory.read s.mem a)) ∧
      (Config.cap ≤ addr.toNat ∨ Config.cap < addr.toNat + text.length →
        Faults .outOfBounds s (exec (.insertString text) s))) ∧
    (s.vs = [] → Faults .stackUnderflow s (exec (.insertString text) s))

/-- A `Load` right after a `Store` to the same cell reads the stored value (42_memops.md R141, 20_memory.md R54). -/
def Obligations.StoreThenLoadReadsTheStoredValue : Prop :=
  ∀ (s : State) (addr v : Word) (rest : List Word),
    s.vs = addr :: v :: rest → addr.toNat < Config.cap → Memory.wf s.mem = true → Fits s.params.vstackCap s.vs.length →
    Answers (exec .store s) fun t =>
      Answers (exec (.push addr) t) fun u =>
        Answers (exec .load u) fun w => w.vs = v :: rest ∧ w.mem = t.mem

/-! ## Binary expressions -/

/-- R156 with the body R155. -/
def Obligations.AddIsExactOrFaults : Prop :=
  encode .add = [0x28#8] ∧
  ∀ s : State, Fits s.params.vstackCap s.vs.length →
    (∀ rhs lhs rest, s.vs = rhs :: lhs :: rest →
      (lhs.toNat + rhs.toNat ≤ 4294967295 →
        exec .add s = .next (advance .add (s.setVs (BitVec.ofNat 32 (lhs.toNat + rhs.toNat) :: rest)))) ∧
      (4294967295 < lhs.toNat + rhs.toNat → Faults .arithmeticOverflow s (exec .add s))) ∧
    (s.vs.length < 2 → Faults .stackUnderflow s (exec .add s))

/-- R157. -/
def Obligations.SubIsExactOrFaults : Prop :=
  encode .sub = [0x29#8] ∧
  ∀ s : State, Fits s.params.vstackCap s.vs.length →
    (∀ rhs lhs rest, s.vs = rhs :: lhs :: rest →
      (rhs.toNat ≤ lhs.toNat →
        exec .sub s = .next (advance .sub (s.setVs (BitVec.ofNat 32 (lhs.toNat - rhs.toNat) :: rest)))) ∧
      (lhs.toNat < rhs.toNat → Faults .arithmeticOverflow s (exec .sub s))) ∧
    (s.vs.length < 2 → Faults .stackUnderflow s (exec .sub s))

/-- R158. -/
def Obligations.MulIsExactOrFaults : Prop :=
  encode .mul = [0x2A#8] ∧
  ∀ s : State, Fits s.params.vstackCap s.vs.length →
    (∀ rhs lhs rest, s.vs = rhs :: lhs :: rest →
      (lhs.toNat * rhs.toNat ≤ 4294967295 →
        exec .mul s = .next (advance .mul (s.setVs (BitVec.ofNat 32 (lhs.toNat * rhs.toNat) :: rest)))) ∧
      (4294967295 < lhs.toNat * rhs.toNat → Faults .arithmeticOverflow s (exec .mul s))) ∧
    (s.vs.length < 2 → Faults .stackUnderflow s (exec .mul s))

/-- R159: the quotient rounded down, `DivideByZero` for a zero divisor, `0 / 0` included. -/
def Obligations.DivIsFloorOrFaults : Prop :=
  encode .div = [0x2B#8] ∧
  ∀ s : State, Fits s.params.vstackCap s.vs.length →
    (∀ rhs lhs rest, s.vs = rhs :: lhs :: rest →
      (rhs ≠ 0#32 →
        exec .div s = .next (advance .div (s.setVs (BitVec.ofNat 32 (lhs.toNat / rhs.toNat) :: rest)))) ∧
      (rhs = 0#32 → Faults .divideByZero s (exec .div s))) ∧
    (s.vs.length < 2 → Faults .stackUnderflow s (exec .div s))

/-! ## Control transfer -/

/-- R91. -/
def Obligations.LabelHasNoEffect : Prop :=
  ∀ (id : Word) (s : State),
    encode (.label id) = encodeFI 0x4C#8 id ∧ exec (.label id) s = .next (advance (.label id) s)

/-- R92. -/
def Obligations.JumpUnconditionalGoesToItsLabel : Prop :=
  ∀ (target : Word) (s : State),
    encode (.jumpUnconditional target) = encodeFI 0x6A#8 target ∧
    (∀ t, LabelTable.index? s.labels target = some t → exec (.jumpUnconditional target) s = .next (s.setPc t)) ∧
    (LabelTable.index? s.labels target = none →
      Faults (.unknownLabel target) s (exec (.jumpUnconditional target) s))

/-- What a conditional jump does: the code is popped either way, and the label resolved only when the jump is taken
(40_control.md section 3). -/
def Sys2Proof.Machine.CondJumpRule (i : Instr) (target : Word) (taken : Word → Prop) : Prop :=
  ∀ s : State,
    (∀ c rest, s.vs = c :: rest →
      (taken c → ∀ t, LabelTable.index? s.labels target = some t →
        exec i s = .next ((s.setVs rest).setPc t)) ∧
      (taken c → LabelTable.index? s.labels target = none → Faults (.unknownLabel target) s (exec i s)) ∧
      (¬ taken c → exec i s = .next (advance i (s.setVs rest)))) ∧
    (s.vs = [] → Faults .stackUnderflow s (exec i s))

/-- R93 to R96. -/
def Obligations.ConditionalJumpsTestThePoppedCode : Prop :=
  ∀ target : Word,
    (encode (.jumpEqual target) = encodeFI 0x6B#8 target ∧
      CondJumpRule (.jumpEqual target) target fun c => c = 0#32) ∧
    (encode (.jumpNotEqual target) = encodeFI 0x6E#8 target ∧
      CondJumpRule (.jumpNotEqual target) target fun c => c ≠ 0#32) ∧
    (encode (.jumpGreater target) = encodeFI 0x6C#8 target ∧
      CondJumpRule (.jumpGreater target) target fun c => c = 1#32) ∧
    (encode (.jumpLesser target) = encodeFI 0x6D#8 target ∧
      CondJumpRule (.jumpLesser target) target fun c => c = 2#32)

/-- R97: the return address is pushed first, then the label resolved. -/
def Obligations.CallPushesTheReturnAddress : Prop :=
  ∀ (target : Word) (s : State),
    encode (.call target) = encodeFI 0x2F#8 target ∧
    (HasRoom s.params.rstackCap s.rs.length →
      (∀ t, LabelTable.index? s.labels target = some t →
        exec (.call target) s = .next ((s.setRs ((s.pc + 1) :: s.rs)).setPc t)) ∧
      (LabelTable.index? s.labels target = none → Faults (.unknownLabel target) s (exec (.call target) s))) ∧
    (¬ HasRoom s.params.rstackCap s.rs.length → Faults .stackOverflow s (exec (.call target) s))

/-- R98. -/
def Obligations.ReturnPopsTheReturnAddress : Prop :=
  encode .ret = [0x0D#8] ∧
  ∀ s : State,
    (∀ a rest, s.rs = a :: rest →
      (a < s.length → exec .ret s = .next ((s.setRs rest).setPc a)) ∧
      (s.length ≤ a → Faults .outOfBounds s (exec .ret s))) ∧
    (s.rs = [] → Faults .stackUnderflow s (exec .ret s))

/-- The run ends successfully and takes no further step; `pc`, `VS`, `RS` and `mem` are left as they are (40_control.md
R99; the stop's name is the model's, entry 12). -/
def Obligations.HaltEndsTheRun : Prop :=
  encode .halt = [0x04#8] ∧
  ∀ s : State, exec .halt s = .next (s.setStatus .halted) ∧
    RunResult.exitStatus .halted = 0 ∧ step (s.setStatus .halted) = .fault .runEnded

/-! ## Syscalls. `hostAnswer` is what the host answers, if anything, to a request; its form, a reply's form and the wait
as a field are the model's (entries 3, 4, 5). -/

/-- Any code from 4 up raises `UnknownSyscall` and makes no host call (44_syscall.md R171). -/
def Obligations.UnknownSyscallCodesFault : Prop :=
  ∀ (s : State) (code : Word) (rest : List Word), s.vs = code :: rest → 4 ≤ code.toNat →
    Faults .unknownSyscall s (exec .syscall s)

/-- The underflow faults of a `Syscall` (44_syscall.md R170, R172 to R175): no code, or too few arguments for it. -/
def Obligations.SyscallUnderflow : Prop :=
  ∀ s : State,
    (s.vs = [] → Faults .stackUnderflow s (exec .syscall s)) ∧
    (∀ args, s.vs = 0#32 :: args → args.length < 3 → Faults .stackUnderflow s (exec .syscall s)) ∧
    (∀ args, s.vs = 1#32 :: args → args.length < 3 → Faults .stackUnderflow s (exec .syscall s)) ∧
    (∀ args, s.vs = 2#32 :: args → args.length < 2 → Faults .stackUnderflow s (exec .syscall s)) ∧
    (s.vs = [3#32] → Faults .stackUnderflow s (exec .syscall s))

/-- The state after host call `c` was answered `r`: no wait, and the exchange done (44_syscall.md R185). -/
def Sys2Proof.Machine.exchanged (c : HostCall) (r : HostReply) (s : State) : State :=
  (s.setHold none).setOut { s.out with hostLog := s.out.hostLog ++ [(hostRequest c, r)] }

/-- A host call's failure raises `SyscallFailure(msg)` with the exchange on record and the wait over, and no cell is
written (44_syscall.md R178, R172). -/
def Sys2Proof.Machine.CallFails (c : HostCall) (msg : Text) (s : State) (o : Out) : Prop :=
  Answers o fun t => t.status = .faulted (.syscallFailure msg) s.pc ∧
    t.out = (exchanged c (.fail msg) s).out ∧ t.hold = none ∧ ∀ a, Memory.read t.mem a = Memory.read s.mem a

/-- Memory `m'` is `m` after a Read reply with bytes `data`: they stand in the buffer, each cell of the tail keeps its
value or becomes some byte, no other cell changes (44_syscall.md R177). -/
def Sys2Proof.Machine.ReadFills (buf count : Word) (data : List Byte) (m m' : Memory) : Prop :=
  (∀ (i : Nat) (b : Byte), data[i]? = some b → Memory.read m' (buf.toNat + i) = b.setWidth 32) ∧
  (∀ i, data.length ≤ i → i < count.toNat →
    Memory.read m' (buf.toNat + i) = Memory.read m (buf.toNat + i) ∨
    ∃ b : Byte, Memory.read m' (buf.toNat + i) = b.setWidth 32) ∧
  (∀ a, (a < buf.toNat ∨ buf.toNat + count.toNat ≤ a) → Memory.read m' a = Memory.read m a)

/-- What a success of call `c` with bytes `data` does to memory: Read alone writes (44_syscall.md R176, R177). -/
def Sys2Proof.Machine.CallWrites (c : HostCall) (data : List Byte) (m m' : Memory) : Prop :=
  match c with
  | .read _ buf count => ReadFills buf count data m m'
  | .write _ _ => m' = m
  | .openFile _ _ => m' = m
  | .close _ => m' = m

/-- R172 and R177, for a reply with at most `count` bytes: the bytes read go to the buffer, each cell of the tail keeps
its value or becomes some byte, no other cell changes, nothing is pushed. -/
def Obligations.SyscallReadFillsTheBuffer : Prop :=
  ∀ (s : State) (fd buf count : Word) (rest : List Word),
    s.vs = 0#32 :: fd :: buf :: count :: rest → Memory.wf s.mem = true →
    ((Config.cap ≤ buf.toNat ∨ Config.cap < buf.toNat + count.toNat) → Faults .outOfBounds s (exec .syscall s)) ∧
    (buf.toNat < Config.cap → buf.toNat + count.toNat ≤ Config.cap →
      (∀ data tail fd' s', hostAnswer (.read fd count) (s.setVs rest) = (some (.ok data tail fd'), s') →
        data.length ≤ count.toNat →
        ∃ m, exec .syscall s = .next (advance .syscall
            ((exchanged (.read fd buf count) (.ok data tail fd') s').setMem m)) ∧
          ReadFills buf count data s.mem m) ∧
      (∀ msg s', hostAnswer (.read fd count) (s.setVs rest) = (some (.fail msg), s') →
        CallFails (.read fd buf count) msg s (exec .syscall s)) ∧
      (∀ s', hostAnswer (.read fd count) (s.setVs rest) = (none, s') →
        exec .syscall s = .next (s'.setHold (some (.host (.read fd buf count))))))

/-- R173: the low bytes of the `count` cells go to the host; no cell changes and nothing is pushed. -/
def Obligations.SyscallWriteSendsTheCells : Prop :=
  ∀ (s : State) (fd buf count : Word) (rest : List Word),
    s.vs = 1#32 :: fd :: buf :: count :: rest →
    ((Config.cap ≤ buf.toNat ∨ Config.cap < buf.toNat + count.toNat) → Faults .outOfBounds s (exec .syscall s)) ∧
    (buf.toNat < Config.cap → buf.toNat + count.toNat ≤ Config.cap →
      ∀ bytes, bytes = (List.range count.toNat).map (fun i => (Memory.read s.mem (buf.toNat + i)).setWidth 8) →
      (∀ data tail fd' s', hostAnswer (.write fd bytes) (s.setVs rest) = (some (.ok data tail fd'), s') →
        exec .syscall s = .next (advance .syscall (exchanged (.write fd bytes) (.ok data tail fd') s'))) ∧
      (∀ msg s', hostAnswer (.write fd bytes) (s.setVs rest) = (some (.fail msg), s') →
        CallFails (.write fd bytes) msg s (exec .syscall s)) ∧
      (∀ s', hostAnswer (.write fd bytes) (s.setVs rest) = (none, s') →
        exec .syscall s = .next (s'.setHold (some (.host (.write fd bytes))))))

/-- R174: the path is the low bytes of the cells up to the first zero cell, the descriptor is discarded, and without a
zero cell up to 9999 the call is out of bounds. -/
def Obligations.SyscallOpenSendsThePath : Prop :=
  ∀ (s : State) (ptr flags : Word) (rest : List Word), s.vs = 2#32 :: ptr :: flags :: rest →
    (Config.cap ≤ ptr.toNat → Faults .outOfBounds s (exec .syscall s)) ∧
    ((∀ j, ptr.toNat ≤ j → j < Config.cap → Memory.read s.mem j ≠ 0#32) → Faults .outOfBounds s (exec .syscall s)) ∧
    (∀ n, ptr.toNat + n < Config.cap → Memory.read s.mem (ptr.toNat + n) = 0#32 →
      (∀ k, k < n → Memory.read s.mem (ptr.toNat + k) ≠ 0#32) →
      ∀ path, path = (List.range n).map (fun i => (Memory.read s.mem (ptr.toNat + i)).setWidth 8) →
      (∀ data tail fd s', hostAnswer (.openFile path flags Config.openMode) (s.setVs rest) =
          (some (.ok data tail fd), s') →
        exec .syscall s = .next (advance .syscall (exchanged (.openFile path flags) (.ok data tail fd) s'))) ∧
      (∀ msg s', hostAnswer (.openFile path flags Config.openMode) (s.setVs rest) = (some (.fail msg), s') →
        CallFails (.openFile path flags) msg s (exec .syscall s)) ∧
      (∀ s', hostAnswer (.openFile path flags Config.openMode) (s.setVs rest) = (none, s') →
        exec .syscall s = .next (s'.setHold (some (.host (.openFile path flags))))))

/-- R175. -/
def Obligations.SyscallCloseSendsTheDescriptor : Prop :=
  ∀ (s : State) (fd : Word) (rest : List Word), s.vs = 3#32 :: fd :: rest →
    (∀ data tail fd' s', hostAnswer (.close fd) (s.setVs rest) = (some (.ok data tail fd'), s') →
      exec .syscall s = .next (advance .syscall (exchanged (.close fd) (.ok data tail fd') s'))) ∧
    (∀ msg s', hostAnswer (.close fd) (s.setVs rest) = (some (.fail msg), s') →
      CallFails (.close fd) msg s (exec .syscall s)) ∧
    (∀ s', hostAnswer (.close fd) (s.setVs rest) = (none, s') →
      exec .syscall s = .next (s'.setHold (some (.host (.close fd)))))

/-- Every host request gets the next settled answer, or else whatever the host draws, and asking changes nothing but the
model's view of the outside world: so a reply of every kind can come (44_syscall.md R178; the form is the model's, entry
4). -/
def Obligations.HostAnswersFromTheOutside : Prop :=
  ∀ (req : HostRequest) (s : State),
    (∀ r rest, s.env.hostIn = r :: rest → hostAnswer req s = (r, s.setEnv { s.env with hostIn := rest })) ∧
    (s.env.hostIn = [] → hostAnswer req s =
      (Config.hostReply s.env.draws req, s.setEnv { s.env with draws := s.env.draws + 1 }))

/-- While no reply has come nothing of the block changes, and only the reply lifts the hold (44_syscall.md R179); a reply
that comes after a wait has the effect of R172 to R178, as one that is there at once: a failure raises `SyscallFailure`, a
success with no more bytes than a Read asked for writes a Read's buffer and nothing else, and ends sequentially. The wait
as a field is the model's (entry 3). -/
def Obligations.HoldLastsUntilTheHostReplies : Prop :=
  ∀ (s : State) (c : HostCall), s.status = .running → s.hold = some (.host c) →
    (∀ s', hostAnswer (hostRequest c) s = (none, s') →
      ∃ e, step s = .next (s.setEnv e)) ∧
    (∀ r s', hostAnswer (hostRequest c) s = (some r, s') →
      Answers (step s) fun t => t.hold ≠ some (.host c) ∧
        t.out.hostLog = s.out.hostLog ++ [(hostRequest c, r)]) ∧
    (s.Inv →
      (∀ msg s', hostAnswer (hostRequest c) s = (some (.fail msg), s') → CallFails c msg s (step s)) ∧
      (∀ data tail fd' s', hostAnswer (hostRequest c) s = (some (.ok data tail fd'), s') →
        (∀ fd buf count, c = .read fd buf count → data.length ≤ count.toNat) →
        ∃ m, step s = .next (advance .syscall ((exchanged c (.ok data tail fd') s').setMem m)) ∧
          CallWrites c data s.mem m))

/-- While a host call is pending, a step changes no program, no label, and no cell but those of a Read's buffer, and,
unless the call fails, no stack; `pc` stays while there is no reply and goes to `pc + 1` where a success ends the call
without `debug`; only a failure ends the run (44_syscall.md R186, R177, R178; a faulted engine's stacks and `pc` are not
observable, 60_exceptions.md R204, entry 2; with `debug` the stop comes before `pc + 1`, entry 3). -/
def Obligations.HostTouchesOnlyTheReadBuffer : Prop :=
  ∀ (s t : State) (c : HostCall), s.Inv → s.hold = some (.host c) → step s = .next t →
    t.prog = s.prog ∧ t.labels = s.labels ∧ t.out.emitted = s.out.emitted ∧
    ((hostAnswer (hostRequest c) s).1 = none →
      t.status = .running ∧ t.vs = s.vs ∧ t.rs = s.rs ∧ t.pc = s.pc ∧ t.hold = s.hold) ∧
    (∀ data tail fd, (hostAnswer (hostRequest c) s).1 = some (.ok data tail fd) →
      t.status = .running ∧ t.vs = s.vs ∧ t.rs = s.rs ∧ t.pc = if s.debug then s.pc else s.pc + 1) ∧
    (∀ msg, (hostAnswer (hostRequest c) s).1 = some (.fail msg) →
      t.status = .faulted (.syscallFailure msg) s.pc) ∧
    ((∀ fd buf count, c ≠ .read fd buf count) → ∀ a, Memory.read t.mem a = Memory.read s.mem a) ∧
    (∀ fd buf count, c = .read fd buf count → ∀ a, (a < buf.toNat ∨ buf.toNat + count.toNat ≤ a) →
      Memory.read t.mem a = Memory.read s.mem a)

/-! ## The debug stop -/

/-- R215: with `debug`, a sequential instruction is followed by a trace of itself and both stacks, then a stop before
`pc + 1`; there `mem` prints the first 30 cells and prompts again (whether the trace comes again is left open), any other
line or the end of input resumes, and no input means waiting. The stop changes no state of the block. The stop's steps,
its input and the repeated trace are the model's form (entries 3, 6, 7). -/
def Obligations.DebugStopProtocol : Prop :=
  (∀ (i : Instr) (s : State), s.debug = true → sequential i s = .next
    ((s.setOut { s.out with console := s.out.console ++ [.trace i s.vs s.rs] }).setHold (some (.console i)))) ∧
  (∀ (i : Instr) (s : State), s.status = .running → s.hold = some (.console i) →
    (∀ s', consoleAnswer s = (some (.line [0x6D#8, 0x65#8, 0x6D#8, 0x0A#8]), s') →
      ∃ e console, step s = .next ((s.setEnv e).setOut { s.out with console := console }) ∧
        (console = s.out.console ++ [.input (.line [0x6D#8, 0x65#8, 0x6D#8, 0x0A#8]),
          .cells ((List.range 30).map (Memory.read s.mem))] ∨
        console = s.out.console ++ [.input (.line [0x6D#8, 0x65#8, 0x6D#8, 0x0A#8]),
          .cells ((List.range 30).map (Memory.read s.mem)), .trace i s.vs s.rs])) ∧
    (∀ c s', consoleAnswer s = (some c, s') → c ≠ .line [0x6D#8, 0x65#8, 0x6D#8, 0x0A#8] →
      ∃ e, step s = .next ((((s.setEnv e).setOut
        { s.out with console := s.out.console ++ [.input c] }).setHold none).setPc (s.pc + 1))) ∧
    (∀ s', consoleAnswer s = (none, s') → ∃ e, step s = .next (s.setEnv e)))

/-! ## Frames over all instructions -/

/-- Every cell outside those an instruction stores to keeps its value; an instruction that stores nothing changes no cell
(20_memory.md R49, 44_syscall.md R177). -/
def Obligations.InstructionsWriteOnlyTheirCells : Prop :=
  ∀ (i : Instr) (s : State), Memory.wf s.mem = true →
    Answers (exec i s) fun t => ∀ a, storesTo i s.vs a = false → Memory.read t.mem a = Memory.read s.mem a

/-- Only `Call` and `Return` touch the return-address stack, when the instruction does not fault (10_state.md R24). -/
def Obligations.OnlyCallAndReturnTouchReturnStack : Prop :=
  ∀ (i : Instr) (s : State), s.status = .running → (∀ target, i ≠ .call target) → i ≠ .ret →
    Answers (exec i s) fun t => t.status.isFaulted = false → t.rs = s.rs

/-- The value stack is untouched by `Label`, `Jump(Unconditional)`, `Call`, `Return` and `Halt`, and below its top four
entries by every instruction, when the instruction does not fault (10_state.md R23; 40_control.md R91, R92, R97 to R99). -/
def Obligations.ValueStackFrame : Prop :=
  ∀ (i : Instr) (s : State), s.status = .running →
    Answers (exec i s) fun t => t.status.isFaulted = false →
      s.vs.drop 4 <:+ t.vs ∧
      (((∃ id, i = .label id) ∨ (∃ target, i = .jumpUnconditional target) ∨ (∃ target, i = .call target) ∨
        i = .ret ∨ i = .halt) → t.vs = s.vs)

/-- Only `Dump` emits on P4 and only `Syscall` makes host calls on P3, at most one each; without `debug` nothing reaches
the console (10_state.md R35, 60_exceptions.md R215). -/
def Obligations.PortsAreReachedOnlyByDumpAndSyscall : Prop :=
  ∀ (i : Instr) (s : State),
    Answers (exec i s) fun t =>
      (t.out.emitted = s.out.emitted ∨ i = .dump ∧ ∃ v, t.out.emitted = s.out.emitted ++ [v]) ∧
      (t.out.hostLog = s.out.hostLog ∨ i = .syscall ∧ ∃ e, t.out.hostLog = s.out.hostLog ++ [e]) ∧
      (s.debug = false → t.out.console = s.out.console)

/-- A sequential or transferring instruction leaves the run going; only `Halt` halts it, and no instruction completes it
(10_state.md R29, 40_control.md R90). -/
def Obligations.OnlyHaltHaltsTheRun : Prop :=
  ∀ (i : Instr) (s : State), s.status = .running →
    Answers (exec i s) fun t => (t.status = .halted ↔ i = .halt) ∧ t.status ≠ .completed
end

