-- ==== Sys2Proof/Laws/Decode.lean ====
section
/-! SUPPORT. The decoder's small lemmas: operand bytes, string scans, what one instruction consumes, and that the loop's
fuel never runs out. -/

namespace Sys2Proof

theorem u32le_operandByte (v : Word) :
    u32le (operandByte v 0) (operandByte v 1) (operandByte v 2) (operandByte v 3) = v := by
  apply BitVec.eq_of_toNat_eq
  have hv : v.toNat < 2 ^ 32 := v.isLt
  simp only [u32le, operandByte, BitVec.extractLsb'_toNat, BitVec.toNat_ofNat, Nat.shiftRight_eq_div_pow]
  omega

theorem scanString_text : ∀ (text : Text) (k : Nat) (rest : List Byte), text.all stringByteOk = true →
    scanString k (text ++ 0#8 :: rest) = .done text rest
  | [], _, _, _ => by simp [scanString]
  | b :: text, k, rest, h => by
    simp only [List.all_cons, Bool.and_eq_true, stringByteOk, decide_eq_true_eq] at h
    have hb : b ≠ 0#8 := by
      rintro rfl
      simp at h
    have ih := scanString_text text (k + 1) rest (by simpa [stringByteOk] using h.2)
    simp [scanString, hb, ih, show ¬ 128 ≤ b.toNat by omega]

/-- A scan that ends gives a text of legal bytes and fewer bytes than it was given. -/
theorem scanString_done : ∀ (bs : List Byte) (k : Nat) (text : Text) (rest : List Byte),
    scanString k bs = .done text rest → text.all stringByteOk = true ∧ rest.length < bs.length
  | [], _, _, _, h => by simp [scanString] at h
  | b :: bs, k, text, rest, h => by
    simp only [scanString] at h
    split_ifs at h with h0 h1
    · simp only [StringScan.done.injEq] at h
      obtain ⟨rfl, rfl⟩ := h
      simp
    · split at h
      · next t r hs =>
        simp only [StringScan.done.injEq] at h
        obtain ⟨rfl, rfl⟩ := h
        have ih := scanString_done bs (k + 1) t r hs
        have hb : b.toNat ≠ 0 := fun hz => h0 (BitVec.eq_of_toNat_eq hz)
        have hb1 : 1 ≤ b.toNat := by omega
        have hb2 : b.toNat < 128 := by omega
        refine ⟨?_, by simp only [List.length_cons]; omega⟩
        simp [stringByteOk, hb1, hb2]
        simpa [stringByteOk] using ih.1
      · cases h
      · cases h

/-- What one instruction leaves is no longer than what stood after its opcode. -/
theorem decodeOne_rest_length {k : Nat} {op : Byte} {rest rest' : List Byte} {i : Instr}
    (h : decodeOne k op rest = .instr i rest') : rest'.length ≤ rest.length := by
  unfold decodeOne at h
  split at h
  · simp only [Decoded.instr.injEq] at h
    exact h.2 ▸ le_refl _
  · split at h
    · split at h
      · simp only [Decoded.instr.injEq] at h
        rw [← h.2]
        simp only [List.length_cons]
        omega
      · cases h
    · split_ifs at h
      split at h
      · next hs =>
        simp only [Decoded.instr.injEq] at h
        rw [← h.2]
        exact (scanString_done _ _ _ _ hs).2.le
      · cases h
      · cases h

/-- The loop's fuel never runs out: more of it than bytes changes nothing. -/
theorem decodeFrom_fuel (cap : Option Nat) : ∀ (fuel k : Nat) (bs : List Byte) (prog : List Instr)
    (labels : Machine.LabelTable), bs.length ≤ fuel →
    decodeFrom cap fuel k bs prog labels = decodeFrom cap bs.length k bs prog labels := by
  suffices H : ∀ (n fuel k : Nat) (bs : List Byte) (prog : List Instr) (labels : Machine.LabelTable),
      bs.length ≤ n → n ≤ fuel → decodeFrom cap fuel k bs prog labels = decodeFrom cap n k bs prog labels from
    fun fuel k bs prog labels h => H bs.length fuel k bs prog labels le_rfl h
  intro n
  induction n with
  | zero =>
    intro fuel k bs prog labels hb _
    obtain rfl := List.length_eq_zero_iff.1 (Nat.le_zero.1 hb)
    cases fuel <;> rfl
  | succ n ih =>
    intro fuel k bs prog labels hb hf
    obtain ⟨fuel, rfl⟩ : ∃ m, fuel = m + 1 := ⟨fuel - 1, by omega⟩
    cases bs with
    | nil => rfl
    | cons op rest =>
      simp only [decodeFrom]
      split
      · rfl
      · rfl
      · next i rest' hd =>
        have := decodeOne_rest_length hd
        simp only [List.length_cons] at hb
        split_ifs
        · rfl
        · exact ih fuel _ rest' _ _ (by omega) (by omega)

end Sys2Proof
end

