-- ==== Sys2Proof/Laws/Memory.lean ====
section
/-! SUPPORT. Sparse data and data memory: reads after writes, and the canonical form every operation keeps. -/

namespace Sys2Proof.Machine

theorem Sparse.get?_put {β : Type} (m : Sparse β) (a : Nat) (v : β) (b : Nat) :
    Sparse.get? (Sparse.put m a v) b = if b = a then some v else Sparse.get? m b := by
  induction m with
  | nil => simp [Sparse.put, Sparse.get?]
  | cons c rest ih =>
    obtain ⟨k, w⟩ := c
    simp only [Sparse.put]
    split_ifs <;> simp_all [Sparse.get?]

theorem Sparse.sortedFrom_mono {β : Type} {lo lo' : Nat} (h : lo' ≤ lo) :
    ∀ m : Sparse β, Sparse.sortedFrom lo m = true → Sparse.sortedFrom lo' m = true
  | [], _ => rfl
  | (k, _) :: rest, hm => by
    simp only [Sparse.sortedFrom, Bool.and_eq_true, decide_eq_true_eq] at hm ⊢
    exact ⟨le_trans h hm.1, hm.2⟩

theorem Sparse.get?_lt_of_sortedFrom {β : Type} : ∀ (m : Sparse β) (lo a : Nat),
    Sparse.sortedFrom lo m = true → a < lo → Sparse.get? m a = none
  | [], _, _, _, _ => rfl
  | (k, _) :: rest, lo, a, hm, ha => by
    simp only [Sparse.sortedFrom, Bool.and_eq_true, decide_eq_true_eq] at hm
    have hk : a ≠ k := by omega
    simp only [Sparse.get?, hk, if_false]
    exact Sparse.get?_lt_of_sortedFrom rest (k + 1) a hm.2 (by omega)

theorem Sparse.get?_erase {β : Type} : ∀ (m : Sparse β) (lo a b : Nat), Sparse.sortedFrom lo m = true →
    Sparse.get? (Sparse.erase m a) b = if b = a then none else Sparse.get? m b
  | [], _, a, b, _ => by simp [Sparse.erase, Sparse.get?]
  | (k, w) :: rest, lo, a, b, hm => by
    simp only [Sparse.sortedFrom, Bool.and_eq_true, decide_eq_true_eq] at hm
    simp only [Sparse.erase]
    by_cases hak : a = k
    · subst hak
      by_cases hb : b = a
      · subst hb
        simp [Sparse.get?_lt_of_sortedFrom rest (b + 1) b hm.2 (by omega)]
      · simp [Sparse.get?, hb]
    · have ih := Sparse.get?_erase rest (k + 1) a b hm.2
      by_cases hbk : b = k
      · subst hbk
        simp [Sparse.get?, hak, Ne.symm hak]
      · simp [Sparse.get?, hak, hbk, ih]

theorem Sparse.sortedFrom_put {β : Type} : ∀ (m : Sparse β) (lo a : Nat) (v : β),
    Sparse.sortedFrom lo m = true → lo ≤ a → Sparse.sortedFrom lo (Sparse.put m a v) = true
  | [], _, _, _, _, ha => by simpa [Sparse.put, Sparse.sortedFrom] using ha
  | (k, w) :: rest, lo, a, v, hm, ha => by
    simp only [Sparse.sortedFrom, Bool.and_eq_true, decide_eq_true_eq] at hm
    simp only [Sparse.put]
    split_ifs with h1 h2
    · simp [Sparse.sortedFrom, ha, hm.2]; omega
    · subst h2; simp [Sparse.sortedFrom, ha, hm.2]
    · simp [Sparse.sortedFrom, hm.1, Sparse.sortedFrom_put rest (k + 1) a v hm.2 (by omega)]

theorem Sparse.sortedFrom_erase {β : Type} : ∀ (m : Sparse β) (lo a : Nat),
    Sparse.sortedFrom lo m = true → Sparse.sortedFrom lo (Sparse.erase m a) = true
  | [], _, _, _ => rfl
  | (k, w) :: rest, lo, a, hm => by
    simp only [Sparse.sortedFrom, Bool.and_eq_true, decide_eq_true_eq] at hm
    simp only [Sparse.erase]
    split_ifs with h
    · exact Sparse.sortedFrom_mono (by omega) rest hm.2
    · simp [Sparse.sortedFrom, hm.1, Sparse.sortedFrom_erase rest (k + 1) a hm.2]

theorem Sparse.mem_put {β : Type} {m : Sparse β} {a : Nat} {v : β} {c : Nat × β} (h : c ∈ Sparse.put m a v) :
    c = (a, v) ∨ c ∈ m := by
  induction m with
  | nil => simpa [Sparse.put] using h
  | cons d rest ih =>
    obtain ⟨k, w⟩ := d
    simp only [Sparse.put] at h
    split_ifs at h
    · exact (List.mem_cons.1 h).imp_right id
    · exact (List.mem_cons.1 h).imp_right fun h => List.mem_cons_of_mem _ h
    · rcases List.mem_cons.1 h with h | h
      · exact .inr (h ▸ List.mem_cons_self)
      · exact (ih h).imp_right fun h => List.mem_cons_of_mem _ h

theorem Sparse.mem_erase {β : Type} {m : Sparse β} {a : Nat} {c : Nat × β} (h : c ∈ Sparse.erase m a) : c ∈ m := by
  induction m with
  | nil => simp [Sparse.erase] at h
  | cons d rest ih =>
    obtain ⟨k, w⟩ := d
    simp only [Sparse.erase] at h
    split_ifs at h
    · exact List.mem_cons_of_mem _ h
    · rcases List.mem_cons.1 h with h | h
      · exact h ▸ List.mem_cons_self
      · exact List.mem_cons_of_mem _ (ih h)

theorem Memory.wf_iff {m : Memory} : Memory.wf m = true ↔
    Sparse.sortedFrom 0 m = true ∧ ∀ c ∈ m, c.1 < Config.cap ∧ c.2 ≠ Memory.unwritten := by
  simp [Memory.wf, List.all_eq_true]

theorem Memory.wf_write {m : Memory} {a : Nat} {v : Word} (hm : Memory.wf m = true) (ha : a < Config.cap) :
    Memory.wf (Memory.write m a v) = true := by
  rw [Memory.wf_iff] at hm ⊢
  unfold Memory.write
  split_ifs with hv
  · exact ⟨Sparse.sortedFrom_erase m 0 a hm.1, fun c hc => hm.2 c (Sparse.mem_erase hc)⟩
  · refine ⟨Sparse.sortedFrom_put m 0 a v hm.1 (Nat.zero_le a), fun c hc => ?_⟩
    rcases Sparse.mem_put hc with rfl | hc
    · exact ⟨ha, hv⟩
    · exact hm.2 c hc

theorem Memory.wf_writeSome {vs : List (Option Word)} : ∀ {m : Memory} {a : Nat}, Memory.wf m = true →
    (vs ≠ [] → a + vs.length ≤ Config.cap) → Memory.wf (Memory.writeSome m a vs) = true := by
  induction vs with
  | nil => intro m a hm _; exact hm
  | cons c rest ih =>
    intro m a hm ha
    have ha := ha (by simp)
    simp only [List.length_cons] at ha
    cases c with
    | none => exact ih hm (fun _ => by omega)
    | some v => exact ih (Memory.wf_write hm (by omega)) (fun _ => by omega)

theorem Memory.read_write {m : Memory} (hm : Memory.wf m = true) (a : Nat) (v : Word) (b : Nat) :
    Memory.read (Memory.write m a v) b = if b = a then v else Memory.read m b := by
  unfold Memory.read Memory.write
  by_cases hv : v = Memory.unwritten
  · rw [if_pos hv, Sparse.get?_erase m 0 a b (Memory.wf_iff.1 hm).1]
    split_ifs <;> simp [hv]
  · rw [if_neg hv, Sparse.get?_put]
    split_ifs <;> simp

/-- Every cell that a range write does not name keeps its value. -/
theorem Memory.read_writeSome_other {vs : List (Option Word)} : ∀ {m : Memory} {a b : Nat}, Memory.wf m = true →
    a + vs.length ≤ Config.cap → (b < a ∨ a + vs.length ≤ b) →
    Memory.read (Memory.writeSome m a vs) b = Memory.read m b := by
  induction vs with
  | nil => intros; rfl
  | cons c rest ih =>
    intro m a b hm ha hb
    simp only [List.length_cons] at ha hb
    cases c with
    | none => exact ih hm (by omega) (by omega)
    | some v =>
      have hw : Memory.wf (Memory.write m a v) = true := Memory.wf_write hm (by omega)
      rw [Memory.writeSome, ih hw (by omega) (by omega), Memory.read_write hm, if_neg (by omega)]

/-- Cell `a + i` of a range write holds the `i`-th value, or its old value where the range keeps it. -/
theorem Memory.read_writeSome_at {vs : List (Option Word)} : ∀ {m : Memory} {a i : Nat}, Memory.wf m = true →
    a + vs.length ≤ Config.cap → ∀ hi : i < vs.length,
    Memory.read (Memory.writeSome m a vs) (a + i) = (vs[i]).getD (Memory.read m (a + i)) := by
  induction vs with
  | nil => intro m a i _ _ hi; exact absurd hi (by simp)
  | cons c rest ih =>
    intro m a i hm ha hi
    simp only [List.length_cons] at ha hi
    cases i with
    | zero =>
      cases c with
      | none => exact Memory.read_writeSome_other (vs := rest) (a := a + 1) (b := a) hm (by omega) (.inl (by omega))
      | some v =>
        have hw : Memory.wf (Memory.write m a v) = true := Memory.wf_write hm (by omega)
        have h := Memory.read_writeSome_other (vs := rest) (a := a + 1) (b := a) hw (by omega) (.inl (by omega))
        simpa [Memory.writeSome, Memory.read_write hm] using h
    | succ i =>
      have he : a + (i + 1) = a + 1 + i := by omega
      cases c with
      | none => rw [he]; exact ih hm (by omega) (by omega)
      | some v =>
        have hw : Memory.wf (Memory.write m a v) = true := Memory.wf_write hm (by omega)
        rw [he, Memory.writeSome, ih hw (by omega) (by omega), Memory.read_write hm, if_neg (by omega)]
        simp

@[simp] theorem Memory.read_nil (a : Nat) : Memory.read [] a = 0#32 := rfl

@[simp] theorem tailCells_length : ∀ (n : Nat) (tail : List (Option Byte)), (tailCells n tail).length = n
  | 0, _ => rfl
  | n + 1, [] => by simp [tailCells, tailCells_length n]
  | n + 1, _ :: rest => by simp [tailCells, tailCells_length n]

@[simp] theorem replyCells_length (count : Nat) (data : List Byte) (tail : List (Option Byte)) :
    (replyCells count data tail).length = count := by
  simp [replyCells]

end Sys2Proof.Machine
end

