-- ==== Sys2Proof/Laws/State.lean ====
section
/-! SUPPORT. One lemma per field per update of State. -/

namespace Sys2Proof.Machine

@[simp] theorem State.setVs_prog (s : State) (x : List Word) : (s.setVs x).prog = s.prog := rfl
@[simp] theorem State.setVs_labels (s : State) (x : List Word) : (s.setVs x).labels = s.labels := rfl
@[simp] theorem State.setVs_vs (s : State) (x : List Word) : (s.setVs x).vs = x := rfl
@[simp] theorem State.setVs_rs (s : State) (x : List Word) : (s.setVs x).rs = s.rs := rfl
@[simp] theorem State.setVs_mem (s : State) (x : List Word) : (s.setVs x).mem = s.mem := rfl
@[simp] theorem State.setVs_pc (s : State) (x : List Word) : (s.setVs x).pc = s.pc := rfl
@[simp] theorem State.setVs_debug (s : State) (x : List Word) : (s.setVs x).debug = s.debug := rfl
@[simp] theorem State.setVs_status (s : State) (x : List Word) : (s.setVs x).status = s.status := rfl
@[simp] theorem State.setVs_params (s : State) (x : List Word) : (s.setVs x).params = s.params := rfl
@[simp] theorem State.setVs_hold (s : State) (x : List Word) : (s.setVs x).hold = s.hold := rfl
@[simp] theorem State.setVs_env (s : State) (x : List Word) : (s.setVs x).env = s.env := rfl
@[simp] theorem State.setVs_out (s : State) (x : List Word) : (s.setVs x).out = s.out := rfl
@[simp] theorem State.setVs_length (s : State) (x : List Word) : (s.setVs x).length = s.length := rfl
@[simp] theorem State.setVs_setVs (s : State) (x y : List Word) : (s.setVs x).setVs y = s.setVs y := rfl

@[simp] theorem State.setRs_prog (s : State) (x : List Nat) : (s.setRs x).prog = s.prog := rfl
@[simp] theorem State.setRs_labels (s : State) (x : List Nat) : (s.setRs x).labels = s.labels := rfl
@[simp] theorem State.setRs_vs (s : State) (x : List Nat) : (s.setRs x).vs = s.vs := rfl
@[simp] theorem State.setRs_rs (s : State) (x : List Nat) : (s.setRs x).rs = x := rfl
@[simp] theorem State.setRs_mem (s : State) (x : List Nat) : (s.setRs x).mem = s.mem := rfl
@[simp] theorem State.setRs_pc (s : State) (x : List Nat) : (s.setRs x).pc = s.pc := rfl
@[simp] theorem State.setRs_debug (s : State) (x : List Nat) : (s.setRs x).debug = s.debug := rfl
@[simp] theorem State.setRs_status (s : State) (x : List Nat) : (s.setRs x).status = s.status := rfl
@[simp] theorem State.setRs_params (s : State) (x : List Nat) : (s.setRs x).params = s.params := rfl
@[simp] theorem State.setRs_hold (s : State) (x : List Nat) : (s.setRs x).hold = s.hold := rfl
@[simp] theorem State.setRs_env (s : State) (x : List Nat) : (s.setRs x).env = s.env := rfl
@[simp] theorem State.setRs_out (s : State) (x : List Nat) : (s.setRs x).out = s.out := rfl
@[simp] theorem State.setRs_length (s : State) (x : List Nat) : (s.setRs x).length = s.length := rfl
@[simp] theorem State.setRs_setRs (s : State) (x y : List Nat) : (s.setRs x).setRs y = s.setRs y := rfl

@[simp] theorem State.setMem_prog (s : State) (x : Memory) : (s.setMem x).prog = s.prog := rfl
@[simp] theorem State.setMem_labels (s : State) (x : Memory) : (s.setMem x).labels = s.labels := rfl
@[simp] theorem State.setMem_vs (s : State) (x : Memory) : (s.setMem x).vs = s.vs := rfl
@[simp] theorem State.setMem_rs (s : State) (x : Memory) : (s.setMem x).rs = s.rs := rfl
@[simp] theorem State.setMem_mem (s : State) (x : Memory) : (s.setMem x).mem = x := rfl
@[simp] theorem State.setMem_pc (s : State) (x : Memory) : (s.setMem x).pc = s.pc := rfl
@[simp] theorem State.setMem_debug (s : State) (x : Memory) : (s.setMem x).debug = s.debug := rfl
@[simp] theorem State.setMem_status (s : State) (x : Memory) : (s.setMem x).status = s.status := rfl
@[simp] theorem State.setMem_params (s : State) (x : Memory) : (s.setMem x).params = s.params := rfl
@[simp] theorem State.setMem_hold (s : State) (x : Memory) : (s.setMem x).hold = s.hold := rfl
@[simp] theorem State.setMem_env (s : State) (x : Memory) : (s.setMem x).env = s.env := rfl
@[simp] theorem State.setMem_out (s : State) (x : Memory) : (s.setMem x).out = s.out := rfl
@[simp] theorem State.setMem_length (s : State) (x : Memory) : (s.setMem x).length = s.length := rfl
@[simp] theorem State.setMem_setMem (s : State) (x y : Memory) : (s.setMem x).setMem y = s.setMem y := rfl

@[simp] theorem State.setPc_prog (s : State) (x : Nat) : (s.setPc x).prog = s.prog := rfl
@[simp] theorem State.setPc_labels (s : State) (x : Nat) : (s.setPc x).labels = s.labels := rfl
@[simp] theorem State.setPc_vs (s : State) (x : Nat) : (s.setPc x).vs = s.vs := rfl
@[simp] theorem State.setPc_rs (s : State) (x : Nat) : (s.setPc x).rs = s.rs := rfl
@[simp] theorem State.setPc_mem (s : State) (x : Nat) : (s.setPc x).mem = s.mem := rfl
@[simp] theorem State.setPc_pc (s : State) (x : Nat) : (s.setPc x).pc = x := rfl
@[simp] theorem State.setPc_debug (s : State) (x : Nat) : (s.setPc x).debug = s.debug := rfl
@[simp] theorem State.setPc_status (s : State) (x : Nat) : (s.setPc x).status = s.status := rfl
@[simp] theorem State.setPc_params (s : State) (x : Nat) : (s.setPc x).params = s.params := rfl
@[simp] theorem State.setPc_hold (s : State) (x : Nat) : (s.setPc x).hold = s.hold := rfl
@[simp] theorem State.setPc_env (s : State) (x : Nat) : (s.setPc x).env = s.env := rfl
@[simp] theorem State.setPc_out (s : State) (x : Nat) : (s.setPc x).out = s.out := rfl
@[simp] theorem State.setPc_length (s : State) (x : Nat) : (s.setPc x).length = s.length := rfl
@[simp] theorem State.setPc_setPc (s : State) (x y : Nat) : (s.setPc x).setPc y = s.setPc y := rfl

@[simp] theorem State.setStatus_prog (s : State) (x : Status) : (s.setStatus x).prog = s.prog := rfl
@[simp] theorem State.setStatus_labels (s : State) (x : Status) : (s.setStatus x).labels = s.labels := rfl
@[simp] theorem State.setStatus_vs (s : State) (x : Status) : (s.setStatus x).vs = s.vs := rfl
@[simp] theorem State.setStatus_rs (s : State) (x : Status) : (s.setStatus x).rs = s.rs := rfl
@[simp] theorem State.setStatus_mem (s : State) (x : Status) : (s.setStatus x).mem = s.mem := rfl
@[simp] theorem State.setStatus_pc (s : State) (x : Status) : (s.setStatus x).pc = s.pc := rfl
@[simp] theorem State.setStatus_debug (s : State) (x : Status) : (s.setStatus x).debug = s.debug := rfl
@[simp] theorem State.setStatus_status (s : State) (x : Status) : (s.setStatus x).status = x := rfl
@[simp] theorem State.setStatus_params (s : State) (x : Status) : (s.setStatus x).params = s.params := rfl
@[simp] theorem State.setStatus_hold (s : State) (x : Status) : (s.setStatus x).hold = s.hold := rfl
@[simp] theorem State.setStatus_env (s : State) (x : Status) : (s.setStatus x).env = s.env := rfl
@[simp] theorem State.setStatus_out (s : State) (x : Status) : (s.setStatus x).out = s.out := rfl
@[simp] theorem State.setStatus_length (s : State) (x : Status) : (s.setStatus x).length = s.length := rfl
@[simp] theorem State.setStatus_setStatus (s : State) (x y : Status) : (s.setStatus x).setStatus y = s.setStatus y := rfl

@[simp] theorem State.setHold_prog (s : State) (x : Option Hold) : (s.setHold x).prog = s.prog := rfl
@[simp] theorem State.setHold_labels (s : State) (x : Option Hold) : (s.setHold x).labels = s.labels := rfl
@[simp] theorem State.setHold_vs (s : State) (x : Option Hold) : (s.setHold x).vs = s.vs := rfl
@[simp] theorem State.setHold_rs (s : State) (x : Option Hold) : (s.setHold x).rs = s.rs := rfl
@[simp] theorem State.setHold_mem (s : State) (x : Option Hold) : (s.setHold x).mem = s.mem := rfl
@[simp] theorem State.setHold_pc (s : State) (x : Option Hold) : (s.setHold x).pc = s.pc := rfl
@[simp] theorem State.setHold_debug (s : State) (x : Option Hold) : (s.setHold x).debug = s.debug := rfl
@[simp] theorem State.setHold_status (s : State) (x : Option Hold) : (s.setHold x).status = s.status := rfl
@[simp] theorem State.setHold_params (s : State) (x : Option Hold) : (s.setHold x).params = s.params := rfl
@[simp] theorem State.setHold_hold (s : State) (x : Option Hold) : (s.setHold x).hold = x := rfl
@[simp] theorem State.setHold_env (s : State) (x : Option Hold) : (s.setHold x).env = s.env := rfl
@[simp] theorem State.setHold_out (s : State) (x : Option Hold) : (s.setHold x).out = s.out := rfl
@[simp] theorem State.setHold_length (s : State) (x : Option Hold) : (s.setHold x).length = s.length := rfl
@[simp] theorem State.setHold_setHold (s : State) (x y : Option Hold) : (s.setHold x).setHold y = s.setHold y := rfl

@[simp] theorem State.setEnv_prog (s : State) (x : Env) : (s.setEnv x).prog = s.prog := rfl
@[simp] theorem State.setEnv_labels (s : State) (x : Env) : (s.setEnv x).labels = s.labels := rfl
@[simp] theorem State.setEnv_vs (s : State) (x : Env) : (s.setEnv x).vs = s.vs := rfl
@[simp] theorem State.setEnv_rs (s : State) (x : Env) : (s.setEnv x).rs = s.rs := rfl
@[simp] theorem State.setEnv_mem (s : State) (x : Env) : (s.setEnv x).mem = s.mem := rfl
@[simp] theorem State.setEnv_pc (s : State) (x : Env) : (s.setEnv x).pc = s.pc := rfl
@[simp] theorem State.setEnv_debug (s : State) (x : Env) : (s.setEnv x).debug = s.debug := rfl
@[simp] theorem State.setEnv_status (s : State) (x : Env) : (s.setEnv x).status = s.status := rfl
@[simp] theorem State.setEnv_params (s : State) (x : Env) : (s.setEnv x).params = s.params := rfl
@[simp] theorem State.setEnv_hold (s : State) (x : Env) : (s.setEnv x).hold = s.hold := rfl
@[simp] theorem State.setEnv_env (s : State) (x : Env) : (s.setEnv x).env = x := rfl
@[simp] theorem State.setEnv_out (s : State) (x : Env) : (s.setEnv x).out = s.out := rfl
@[simp] theorem State.setEnv_length (s : State) (x : Env) : (s.setEnv x).length = s.length := rfl
@[simp] theorem State.setEnv_setEnv (s : State) (x y : Env) : (s.setEnv x).setEnv y = s.setEnv y := rfl

@[simp] theorem State.setOut_prog (s : State) (x : Ports) : (s.setOut x).prog = s.prog := rfl
@[simp] theorem State.setOut_labels (s : State) (x : Ports) : (s.setOut x).labels = s.labels := rfl
@[simp] theorem State.setOut_vs (s : State) (x : Ports) : (s.setOut x).vs = s.vs := rfl
@[simp] theorem State.setOut_rs (s : State) (x : Ports) : (s.setOut x).rs = s.rs := rfl
@[simp] theorem State.setOut_mem (s : State) (x : Ports) : (s.setOut x).mem = s.mem := rfl
@[simp] theorem State.setOut_pc (s : State) (x : Ports) : (s.setOut x).pc = s.pc := rfl
@[simp] theorem State.setOut_debug (s : State) (x : Ports) : (s.setOut x).debug = s.debug := rfl
@[simp] theorem State.setOut_status (s : State) (x : Ports) : (s.setOut x).status = s.status := rfl
@[simp] theorem State.setOut_params (s : State) (x : Ports) : (s.setOut x).params = s.params := rfl
@[simp] theorem State.setOut_hold (s : State) (x : Ports) : (s.setOut x).hold = s.hold := rfl
@[simp] theorem State.setOut_env (s : State) (x : Ports) : (s.setOut x).env = s.env := rfl
@[simp] theorem State.setOut_out (s : State) (x : Ports) : (s.setOut x).out = x := rfl
@[simp] theorem State.setOut_length (s : State) (x : Ports) : (s.setOut x).length = s.length := rfl
@[simp] theorem State.setOut_setOut (s : State) (x y : Ports) : (s.setOut x).setOut y = s.setOut y := rfl

end Sys2Proof.Machine
end

