-- ==== Sys2Proof/Laws/Ops.lean ====
section
/-! SUPPORT. One rule per shared operation: what it answers, and what it takes for all its answers to meet a property. A
proof about a meaning chains these rules and does not unfold the operations. -/

namespace Sys2Proof.Machine

/-! What each operation answers on the shapes of its input. -/

theorem raise_eq (f : RunFault) (s : State) : raise f s = .next (s.setStatus (.faulted f s.pc)) := rfl

theorem popV_nil {s : State} (k : Word → State → Out) (h : s.vs = []) : popV s k = raise .stackUnderflow s := by
  simp [popV, h]

theorem popV_cons {s : State} {a : Word} {rest : List Word} (k : Word → State → Out) (h : s.vs = a :: rest) :
    popV s k = k a (s.setVs rest) := by
  simp [popV, h]

theorem popR_nil {s : State} (k : Nat → State → Out) (h : s.rs = []) : popR s k = raise .stackUnderflow s := by
  simp [popR, h]

theorem popR_cons {s : State} {a : Nat} {rest : List Nat} (k : Nat → State → Out) (h : s.rs = a :: rest) :
    popR s k = k a (s.setRs rest) := by
  simp [popR, h]

theorem pushV_room {v : Word} {s : State} (k : State → Out) (h : HasRoom s.params.vstackCap s.vs.length) :
    pushV v s k = k (s.setVs (v :: s.vs)) := by
  simp [pushV, h]

theorem pushR_room {n : Nat} {s : State} (k : State → Out) (h : HasRoom s.params.rstackCap s.rs.length) :
    pushR n s k = k (s.setRs (n :: s.rs)) := by
  simp [pushR, h]

theorem checkCell_in {a : Nat} {s : State} (k : State → Out) (h : a < Config.cap) : checkCell a s k = k s := by
  simp [checkCell, h]

theorem checkRange_in {a n : Nat} {s : State} (k : State → Out) (h : a < Config.cap) (h' : a + n ≤ Config.cap) :
    checkRange a n s k = k s := by
  simp [checkRange, inRange, h, h']

theorem resolve_declared {target : Word} {s : State} {t : Nat} (k : Nat → State → Out)
    (h : LabelTable.index? s.labels target = some t) : resolve target s k = k t s := by
  simp [resolve, h]

@[simp] theorem fits_none (n : Nat) : fits none n = true := rfl

@[simp] theorem fits_some (c n : Nat) : fits (some c) n = decide (n ≤ c) := rfl

@[simp] theorem atCapacity_none (n : Nat) : atCapacity none n = false := rfl

@[simp] theorem atCapacity_some (c n : Nat) : atCapacity (some c) n = decide (c ≤ n) := rfl

/-- A fitting stack has room once something is popped. -/
theorem Fits.hasRoom {cap : Option Nat} {n m : Nat} (h : Fits cap n) (hm : m < n) : HasRoom cap m := by
  cases cap <;> simp_all
  omega

theorem Fits.mono {cap : Option Nat} {n m : Nat} (h : Fits cap n) (hm : m ≤ n) : Fits cap m := by
  cases cap <;> simp_all
  omega

theorem HasRoom.fits_succ {cap : Option Nat} {n : Nat} (h : HasRoom cap n) : Fits cap (n + 1) := by
  cases cap <;> simp_all

/-! What it takes for an operation to answer a next state that meets `P`. -/

theorem Answers.next {s : State} {P : State → Prop} (h : P s) : Answers (.next s) P := ⟨s, rfl, h⟩

theorem Answers.of_eq {o : Out} {t : State} {P : State → Prop} (h : Answers o P) (ht : o = .next t) : P t := by
  obtain ⟨u, hu, hP⟩ := h
  rw [hu] at ht
  cases ht
  exact hP

theorem Answers.imp {o : Out} {P Q : State → Prop} (h : Answers o P) (hPQ : ∀ t, P t → Q t) : Answers o Q := by
  obtain ⟨t, ht, hP⟩ := h
  exact ⟨t, ht, hPQ t hP⟩

theorem raise_answers {f : RunFault} {s : State} {P : State → Prop} (h : P (s.setStatus (.faulted f s.pc))) :
    Answers (raise f s) P := .next h

theorem popV_answers {s : State} {k : Word → State → Out} {P : State → Prop}
    (hnil : s.vs = [] → P (s.setStatus (.faulted .stackUnderflow s.pc)))
    (hcons : ∀ a rest, s.vs = a :: rest → Answers (k a (s.setVs rest)) P) : Answers (popV s k) P := by
  rcases hvs : s.vs with _ | ⟨a, rest⟩
  · rw [popV_nil k hvs]; exact raise_answers (hnil hvs)
  · rw [popV_cons k hvs]; exact hcons a rest hvs

theorem popR_answers {s : State} {k : Nat → State → Out} {P : State → Prop}
    (hnil : s.rs = [] → P (s.setStatus (.faulted .stackUnderflow s.pc)))
    (hcons : ∀ a rest, s.rs = a :: rest → Answers (k a (s.setRs rest)) P) : Answers (popR s k) P := by
  rcases hrs : s.rs with _ | ⟨a, rest⟩
  · rw [popR_nil k hrs]; exact raise_answers (hnil hrs)
  · rw [popR_cons k hrs]; exact hcons a rest hrs

theorem pushV_answers {v : Word} {s : State} {k : State → Out} {P : State → Prop}
    (hfull : P (s.setStatus (.faulted .stackOverflow s.pc)))
    (hroom : HasRoom s.params.vstackCap s.vs.length → Answers (k (s.setVs (v :: s.vs))) P) :
    Answers (pushV v s k) P := by
  unfold pushV
  split_ifs with h
  · exact raise_answers hfull
  · exact hroom (by simpa using h)

theorem pushR_answers {n : Nat} {s : State} {k : State → Out} {P : State → Prop}
    (hfull : P (s.setStatus (.faulted .stackOverflow s.pc)))
    (hroom : HasRoom s.params.rstackCap s.rs.length → Answers (k (s.setRs (n :: s.rs))) P) :
    Answers (pushR n s k) P := by
  unfold pushR
  split_ifs with h
  · exact raise_answers hfull
  · exact hroom (by simpa using h)

theorem checkCell_answers {a : Nat} {s : State} {k : State → Out} {P : State → Prop}
    (hout : P (s.setStatus (.faulted .outOfBounds s.pc))) (hin : a < Config.cap → Answers (k s) P) :
    Answers (checkCell a s k) P := by
  unfold checkCell
  split_ifs with h
  · exact hin h
  · exact raise_answers hout

theorem checkRange_answers {a n : Nat} {s : State} {k : State → Out} {P : State → Prop}
    (hout : P (s.setStatus (.faulted .outOfBounds s.pc)))
    (hin : inRange a n = true → Answers (k s) P) : Answers (checkRange a n s k) P := by
  unfold checkRange
  split_ifs with h
  · exact hin h
  · exact raise_answers hout

theorem scanPath_answers {ptr : Nat} {s : State} {k : List Byte → State → Out} {P : State → Prop}
    (hnone : P (s.setStatus (.faulted .outOfBounds s.pc)))
    (hsome : ∀ path, pathFrom s.mem ptr (Config.cap - ptr) = some path → Answers (k path s) P) :
    Answers (scanPath ptr s k) P := by
  unfold scanPath
  split
  · exact raise_answers hnone
  · next path h => exact hsome path h

theorem resolve_answers {target : Word} {s : State} {k : Nat → State → Out} {P : State → Prop}
    (hnone : P (s.setStatus (.faulted (.unknownLabel target) s.pc)))
    (hsome : ∀ t, LabelTable.index? s.labels target = some t → Answers (k t s) P) :
    Answers (resolve target s k) P := by
  unfold resolve
  split
  · next t h => exact hsome t h
  · exact raise_answers hnone

theorem sequential_answers {i : Instr} {s : State} {P : State → Prop} (h : P (advance i s)) :
    Answers (sequential i s) P := .next h

theorem transfer_answers {t : Nat} {s : State} {P : State → Prop} (h : P (s.setPc t)) :
    Answers (transfer t s) P := .next h

/-- Asking the host touches only the model's view of the outside world. -/
theorem hostAnswer_env (req : HostRequest) (s : State) : ∃ e, (hostAnswer req s).2 = s.setEnv e := by
  unfold hostAnswer
  split <;> exact ⟨_, rfl⟩

theorem consoleAnswer_env (s : State) : ∃ e, (consoleAnswer s).2 = s.setEnv e := by
  unfold consoleAnswer
  split <;> exact ⟨_, rfl⟩

/-- A host call goes on waiting, fails, or succeeds; nothing else. -/
theorem callHost_answers {c : HostCall} {s : State} {P : State → Prop}
    (hwait : ∀ e, P ((s.setEnv e).setHold (some (.host c))))
    (hfail : ∀ e msg, P ((((s.setEnv e).setHold none).setOut
      { s.out with hostLog := s.out.hostLog ++ [(hostRequest c, .fail msg)] }).setStatus
        (.faulted (.syscallFailure msg) s.pc)))
    (hok : ∀ e data tail fd, P (advance .syscall ((((s.setEnv e).setHold none).setOut
      { s.out with hostLog := s.out.hostLog ++ [(hostRequest c, .ok data tail fd)] }).setMem
        (replyMemory c data tail s.mem)))) :
    Answers (callHost c s) P := by
  obtain ⟨e, he⟩ := hostAnswer_env (hostRequest c) s
  unfold callHost
  rcases hr : hostAnswer (hostRequest c) s with ⟨_ | r, s'⟩
  all_goals
    rw [hr] at he
    obtain rfl : s' = s.setEnv e := he
  · exact .next (hwait e)
  · cases r with
    | fail msg => exact .next (hfail e msg)
    | ok data tail fd => exact .next (hok e data tail fd)

/-! The three ends of a host call, by the host's answer. -/

theorem callHost_wait {c : HostCall} {s s' : State} (h : hostAnswer (hostRequest c) s = (none, s')) :
    callHost c s = .next (s'.setHold (some (.host c))) := by
  simp only [callHost, h]

theorem callHost_reply {c : HostCall} {r : HostReply} {s s' : State}
    (h : hostAnswer (hostRequest c) s = (some r, s')) : callHost c s = finishCall c r s' := by
  simp only [callHost, h]

/-- The state an answer leaves differs from the one asked in only in the model's view of the outside world. -/
theorem hostAnswer_state {req : HostRequest} {a : Option HostReply} {s s' : State} (h : hostAnswer req s = (a, s')) :
    ∃ e, s' = s.setEnv e := by
  obtain ⟨e, he⟩ := hostAnswer_env req s
  exact ⟨e, by rw [h] at he; exact he⟩

/-! What a sequential instruction's end leaves alone. -/

@[simp] theorem advance_prog (i : Instr) (s : State) : (advance i s).prog = s.prog := by
  unfold advance; split_ifs <;> rfl
@[simp] theorem advance_labels (i : Instr) (s : State) : (advance i s).labels = s.labels := by
  unfold advance; split_ifs <;> rfl
@[simp] theorem advance_vs (i : Instr) (s : State) : (advance i s).vs = s.vs := by
  unfold advance; split_ifs <;> rfl
@[simp] theorem advance_rs (i : Instr) (s : State) : (advance i s).rs = s.rs := by
  unfold advance; split_ifs <;> rfl
@[simp] theorem advance_mem (i : Instr) (s : State) : (advance i s).mem = s.mem := by
  unfold advance; split_ifs <;> rfl
@[simp] theorem advance_debug (i : Instr) (s : State) : (advance i s).debug = s.debug := by
  unfold advance; split_ifs <;> rfl
@[simp] theorem advance_status (i : Instr) (s : State) : (advance i s).status = s.status := by
  unfold advance; split_ifs <;> rfl
@[simp] theorem advance_params (i : Instr) (s : State) : (advance i s).params = s.params := by
  unfold advance; split_ifs <;> rfl
@[simp] theorem advance_env (i : Instr) (s : State) : (advance i s).env = s.env := by
  unfold advance; split_ifs <;> rfl
@[simp] theorem advance_emitted (i : Instr) (s : State) : (advance i s).out.emitted = s.out.emitted := by
  unfold advance; split_ifs <;> rfl
@[simp] theorem advance_hostLog (i : Instr) (s : State) : (advance i s).out.hostLog = s.out.hostLog := by
  unfold advance; split_ifs <;> rfl
@[simp] theorem advance_length (i : Instr) (s : State) : (advance i s).length = s.length := by
  simp [State.length]

theorem advance_plain (i : Instr) {s : State} (h : s.debug = false) : advance i s = s.setPc (s.pc + 1) := by
  simp [advance, h]

theorem advance_debugging (i : Instr) {s : State} (h : s.debug = true) :
    advance i s = (s.trace i).setHold (some (.console i)) := by
  simp [advance, h]

end Sys2Proof.Machine
end

