-- ==== Sys2Proof/Laws/Exec.lean ====
section
/-! SUPPORT. What an instruction can do, said once: `exec_effect` says that every meaning answers a next state that is one
of the effects below. Frames and invariants over all instructions are case analyses of it. -/

namespace Sys2Proof.Machine

/-- What a host call can do to the state it is made in (or waited for in). -/
inductive HostEffect (c : HostCall) (s : State) : State → Prop where
  | wait (e : Env) : HostEffect c s ((s.setEnv e).setHold (some (.host c)))
  | fail (e : Env) (msg : Text) : HostEffect c s
      ((((s.setEnv e).setHold none).setOut
        { s.out with hostLog := s.out.hostLog ++ [(hostRequest c, .fail msg)] }).setStatus
          (.faulted (.syscallFailure msg) s.pc))
  | ok (e : Env) (data : List Byte) (tail : List (Option Byte)) (fd : Word) : HostEffect c s
      (advance .syscall ((((s.setEnv e).setHold none).setOut
        { s.out with hostLog := s.out.hostLog ++ [(hostRequest c, .ok data tail fd)] }).setMem
          (replyMemory c data tail s.mem)))

theorem callHost_effect (c : HostCall) (s : State) : Answers (callHost c s) (HostEffect c s) :=
  callHost_answers (fun e => .wait e) (fun e msg => .fail e msg) (fun e data tail fd => .ok e data tail fd)

/-- The instructions that may transfer control or end the run and that are never sequential. -/
def neverSequential : Instr → Bool
  | .push _ => false
  | .pop => false
  | .dump => false
  | .halt => true
  | .dup => false
  | .swap => false
  | .rot => false
  | .ret => true
  | .add => false
  | .sub => false
  | .mul => false
  | .div => false
  | .call _ => true
  | .cmp => false
  | .label _ => false
  | .syscall => false
  | .jumpUnconditional _ => true
  | .jumpEqual _ => false
  | .jumpGreater _ => false
  | .jumpLesser _ => false
  | .jumpNotEqual _ => false
  | .load => false
  | .store => false
  | .insertString _ => false

/-- The five jumps. -/
def isJump : Instr → Bool
  | .push _ => false
  | .pop => false
  | .dump => false
  | .halt => false
  | .dup => false
  | .swap => false
  | .rot => false
  | .ret => false
  | .add => false
  | .sub => false
  | .mul => false
  | .div => false
  | .call _ => false
  | .cmp => false
  | .label _ => false
  | .syscall => false
  | .jumpUnconditional _ => true
  | .jumpEqual _ => true
  | .jumpGreater _ => true
  | .jumpLesser _ => true
  | .jumpNotEqual _ => true
  | .load => false
  | .store => false
  | .insertString _ => false

/-- `m` is `m'` with nothing changed but cells that `i` stores to, all inside memory. -/
def StoredBy (i : Instr) (vs : List Word) (m' m : Memory) : Prop :=
  m = m' ∨ ∃ a cells, m = Memory.writeSome m' a cells ∧ a + cells.length ≤ Config.cap ∧
    ∀ b, a ≤ b → b < a + cells.length → storesTo i vs b = true

/-- The effects of instruction `i` at `s`. -/
inductive Effect (i : Instr) (s : State) : State → Prop where
  | fault (vs : List Word) (rs : List Nat) (f : RunFault) (hi : i ≠ .halt) (hvs : vs.length ≤ s.vs.length)
      (hrs : rs <:+ s.rs ∨ HasRoom s.params.rstackCap s.rs.length ∧ rs = (s.pc + 1) :: s.rs) :
      Effect i s (((s.setVs vs).setRs rs).setStatus (.faulted f s.pc))
  | sequential (vs : List Word) (m : Memory) (emitted : List Word) (hi : neverSequential i = false)
      (hfit : Fits s.params.vstackCap s.vs.length → Fits s.params.vstackCap vs.length)
      (hdrop : s.vs.drop 4 <:+ vs) (hlabel : ∀ id, i = .label id → vs = s.vs) (hm : StoredBy i s.vs s.mem m)
      (he : emitted = s.out.emitted ∨ i = .dump ∧ ∃ v, emitted = s.out.emitted ++ [v]) :
      Effect i s (advance i (((s.setVs vs).setMem m).setOut { s.out with emitted := emitted }))
  | jump (vs : List Word) (target : Word) (t : Nat) (hi : isJump i = true)
      (ht : LabelTable.index? s.labels target = some t) (hvs : vs.length ≤ s.vs.length) (hdrop : s.vs.drop 4 <:+ vs)
      (hu : ∀ target, i = .jumpUnconditional target → vs = s.vs) : Effect i s ((s.setVs vs).setPc t)
  | call (target : Word) (t : Nat) (hi : i = .call target) (ht : LabelTable.index? s.labels target = some t)
      (hroom : HasRoom s.params.rstackCap s.rs.length) : Effect i s ((s.setRs ((s.pc + 1) :: s.rs)).setPc t)
  | ret (a : Nat) (rest : List Nat) (hi : i = .ret) (hrs : s.rs = a :: rest) (ha : a < s.length) :
      Effect i s ((s.setRs rest).setPc a)
  | halt (hi : i = .halt) : Effect i s (s.setStatus .halted)
  | host (c : HostCall) (vs : List Word) (t : State) (hi : i = .syscall) (hvs : vs.length ≤ s.vs.length)
      (hdrop : s.vs.drop 4 <:+ vs) (hc : callInRange c = true)
      (hread : ∀ fd buf count, c = .read fd buf count → ∃ rest, s.vs = 0#32 :: fd :: buf :: count :: rest)
      (ht : HostEffect c (s.setVs vs) t) : Effect i s t

/-- A fault before anything is pushed: only pops have happened. -/
theorem Effect.popped {i : Instr} {s : State} (vs : List Word) (f : RunFault) (hvs : vs.length ≤ s.vs.length)
    (hi : i ≠ .halt := by intro h; cases h) :
    Effect i s ((s.setVs vs).setStatus (.faulted f s.pc)) :=
  .fault vs s.rs f hi hvs (.inl (List.suffix_refl _))

/-- A sequential instruction that only works on the value stack. -/
theorem Effect.onStack {i : Instr} {s : State} (vs : List Word) (hi : neverSequential i = false)
    (hfit : Fits s.params.vstackCap s.vs.length → Fits s.params.vstackCap vs.length)
    (hdrop : s.vs.drop 4 <:+ vs) (hlabel : ∀ id, i = .label id → vs = s.vs) : Effect i s (advance i (s.setVs vs)) :=
  .sequential vs s.mem s.out.emitted hi hfit hdrop hlabel (.inl rfl) (.inl rfl)

theorem drop_suffix_cons_drop (vs : List Word) : ∀ n k, k ≤ n → vs.drop n <:+ vs.drop k := by
  intro n k h
  obtain ⟨d, rfl⟩ := Nat.exists_eq_add_of_le h
  rw [← List.drop_drop]
  exact List.drop_suffix d _

theorem condJump_effect {i : Instr} {taken : Word → Bool} {target : Word} {s : State} (hj : isJump i = true)
    (hi : neverSequential i = false) (hl : ∀ id, i ≠ .label id) (hu : ∀ t, i ≠ .jumpUnconditional t) :
    Answers (condJump i taken target s) (Effect i s) := by
  have hh : i ≠ .halt := by
    intro h
    subst h
    cases hi
  refine popV_answers (fun _ => Effect.popped s.vs _ le_rfl hh) fun c rest hvs => ?_
  have hlen : rest.length ≤ s.vs.length := by simp [hvs]
  have hdrop : s.vs.drop 4 <:+ rest := by
    simpa [hvs] using List.drop_suffix 3 rest
  split_ifs
  · exact resolve_answers (Effect.popped rest _ hlen hh) fun t ht =>
      transfer_answers (.jump rest target t hj ht hlen hdrop fun t h => absurd h (hu t))
  · exact sequential_answers (Effect.onStack rest hi (fun h => h.mono hlen) hdrop fun id h => absurd h (hl id))

theorem binaryExpr_effect {i : Instr} {op : Int → Int → Int} {s : State} (hi : neverSequential i = false)
    (hl : ∀ id, i ≠ .label id) : Answers (binaryExpr i op s) (Effect i s) := by
  have hh : i ≠ .halt := by
    intro h
    subst h
    cases hi
  refine popV_answers (fun _ => Effect.popped s.vs _ le_rfl hh) fun rhs r1 h1 => ?_
  refine popV_answers (fun _ => Effect.popped r1 _ (by simp [h1]) hh) fun lhs r2 h2 => ?_
  rw [State.setVs_vs] at h2
  subst h2
  split_ifs
  · exact raise_answers (Effect.popped r2 _ (by simp [h1]; omega) hh)
  · refine pushV_answers (Effect.popped r2 _ (by simp [h1]; omega) hh) fun hroom => sequential_answers ?_
    refine Effect.onStack (BitVec.ofInt 32 (op lhs.toNat rhs.toNat) :: r2) hi (fun _ => hroom.fits_succ) ?_
      fun id h => absurd h (hl id)
    simpa [h1] using (List.drop_suffix 2 r2).trans (List.suffix_cons _ _)

theorem sysCall_host_effect {c : HostCall} {s : State} {vs : List Word} (hvs : vs.length ≤ s.vs.length)
    (hdrop : s.vs.drop 4 <:+ vs) (hc : callInRange c = true)
    (hread : ∀ fd buf count, c = .read fd buf count → ∃ rest, s.vs = 0#32 :: fd :: buf :: count :: rest) :
    Answers (callHost c (s.setVs vs)) (Effect .syscall s) :=
  (callHost_effect c (s.setVs vs)).imp fun t ht => .host c vs t rfl hvs hdrop hc hread ht

theorem execSyscall_effect (s : State) : Answers (execSyscall s) (Effect .syscall s) := by
  simp only [execSyscall, sysRead, sysWrite, sysOpen, sysClose]
  refine popV_answers (fun _ => Effect.popped s.vs _ le_rfl) fun code r0 h0 => ?_
  split
  · next hcode =>
    obtain rfl : code = 0#32 := BitVec.eq_of_toNat_eq hcode
    refine popV_answers (fun _ => Effect.popped r0 _ (by simp [h0])) fun fd r1 h1 => ?_
    rw [State.setVs_vs] at h1; subst h1
    refine popV_answers (fun _ => Effect.popped r1 _ (by simp [h0]; omega)) fun buf r2 h2 => ?_
    rw [State.setVs_vs] at h2; subst h2
    refine popV_answers (fun _ => Effect.popped r2 _ (by simp [h0]; omega)) fun count r3 h3 => ?_
    rw [State.setVs_vs] at h3; subst h3
    refine checkRange_answers (Effect.popped r3 _ (by simp [h0]; omega)) fun hin => ?_
    exact sysCall_host_effect (s := s) (vs := r3) (by simp [h0]; omega) (by simp [h0]) hin
      fun _ _ _ h => by cases h; exact ⟨r3, h0⟩
  · refine popV_answers (fun _ => Effect.popped r0 _ (by simp [h0])) fun fd r1 h1 => ?_
    rw [State.setVs_vs] at h1; subst h1
    refine popV_answers (fun _ => Effect.popped r1 _ (by simp [h0]; omega)) fun buf r2 h2 => ?_
    rw [State.setVs_vs] at h2; subst h2
    refine popV_answers (fun _ => Effect.popped r2 _ (by simp [h0]; omega)) fun count r3 h3 => ?_
    rw [State.setVs_vs] at h3; subst h3
    refine checkRange_answers (Effect.popped r3 _ (by simp [h0]; omega)) fun _ => ?_
    exact sysCall_host_effect (s := s) (vs := r3) (by simp [h0]; omega) (by simp [h0]) rfl fun _ _ _ h => by cases h
  · refine popV_answers (fun _ => Effect.popped r0 _ (by simp [h0])) fun ptr r1 h1 => ?_
    rw [State.setVs_vs] at h1; subst h1
    refine popV_answers (fun _ => Effect.popped r1 _ (by simp [h0]; omega)) fun flags r2 h2 => ?_
    rw [State.setVs_vs] at h2; subst h2
    refine checkCell_answers (Effect.popped r2 _ (by simp [h0]; omega)) fun _ => ?_
    refine scanPath_answers (Effect.popped r2 _ (by simp [h0]; omega)) fun _ _ => ?_
    exact sysCall_host_effect (s := s) (vs := r2) (by simp [h0]; omega) (by simpa [h0] using List.drop_suffix 1 r2) rfl
      fun _ _ _ h => by cases h
  · refine popV_answers (fun _ => Effect.popped r0 _ (by simp [h0])) fun fd r1 h1 => ?_
    rw [State.setVs_vs] at h1; subst h1
    exact sysCall_host_effect (s := s) (vs := r1) (by simp [h0]; omega) (by simpa [h0] using List.drop_suffix 2 r1) rfl
      fun _ _ _ h => by cases h
  · exact raise_answers (Effect.popped r0 _ (by simp [h0]))

/-- Every instruction, in every state, answers a next state, and that is one of its effects. -/
theorem exec_effect (i : Instr) (s : State) : Answers (exec i s) (Effect i s) := by
  cases i with
  | push v =>
    simp only [exec, execPush]
    refine pushV_answers (Effect.popped s.vs _ le_rfl) fun hroom => sequential_answers ?_
    exact Effect.onStack (v :: s.vs) rfl (fun _ => hroom.fits_succ)
      ((List.drop_suffix 4 s.vs).trans (List.suffix_cons _ _)) fun _ h => by cases h
  | pop =>
    simp only [exec, execPop]
    refine popV_answers (fun _ => Effect.popped s.vs _ le_rfl) fun a r h => sequential_answers ?_
    exact Effect.onStack r rfl (fun hf => hf.mono (by simp [h])) (by simpa [h] using List.drop_suffix 3 r)
      fun _ h => by cases h
  | dump =>
    simp only [exec, execDump]
    refine popV_answers (fun _ => Effect.popped s.vs _ le_rfl) fun a r h => sequential_answers ?_
    exact Effect.sequential r s.mem (s.out.emitted ++ [a]) rfl (fun hf => hf.mono (by simp [h]))
      (by simpa [h] using List.drop_suffix 3 r) (fun _ h => by cases h) (.inl rfl) (.inr ⟨rfl, a, rfl⟩)
  | halt => exact .next (.halt rfl)
  | dup =>
    simp only [exec, execDup]
    split
    · next h =>
      exact sequential_answers (Effect.onStack s.vs rfl id (List.drop_suffix 4 _) fun _ _ => rfl)
    · refine popV_answers (fun _ => Effect.popped s.vs _ le_rfl) fun a r h => ?_
      refine pushV_answers (Effect.popped r _ (by simp [h])) fun _ => ?_
      refine pushV_answers (Effect.popped (a :: r) _ (by simp [h])) fun hroom => sequential_answers ?_
      exact Effect.onStack (a :: a :: r) rfl (fun _ => hroom.fits_succ)
        (by simpa [h] using (List.drop_suffix 3 r).trans ((List.suffix_cons a r).trans (List.suffix_cons a _)))
        fun _ h => by cases h
  | swap =>
    simp only [exec, execSwap]
    refine popV_answers (fun _ => Effect.popped s.vs _ le_rfl) fun a r1 h1 => ?_
    refine popV_answers (fun _ => Effect.popped r1 _ (by simp [h1])) fun b r2 h2 => ?_
    rw [State.setVs_vs] at h2; subst h2
    refine pushV_answers (Effect.popped r2 _ (by simp [h1]; omega)) fun _ => ?_
    refine pushV_answers (Effect.popped (a :: r2) _ (by simp [h1])) fun hroom => sequential_answers ?_
    exact Effect.onStack (b :: a :: r2) rfl (fun _ => hroom.fits_succ)
      (by simpa [h1] using (List.drop_suffix 2 r2).trans ((List.suffix_cons a r2).trans (List.suffix_cons b _)))
      fun _ h => by cases h
  | rot =>
    simp only [exec, execRot]
    refine popV_answers (fun _ => Effect.popped s.vs _ le_rfl) fun a r1 h1 => ?_
    refine popV_answers (fun _ => Effect.popped r1 _ (by simp [h1])) fun b r2 h2 => ?_
    rw [State.setVs_vs] at h2; subst h2
    refine popV_answers (fun _ => Effect.popped r2 _ (by simp [h1]; omega)) fun c r3 h3 => ?_
    rw [State.setVs_vs] at h3; subst h3
    refine pushV_answers (Effect.popped r3 _ (by simp [h1]; omega)) fun _ => ?_
    refine pushV_answers (Effect.popped (a :: r3) _ (by simp [h1])) fun _ => ?_
    refine pushV_answers (Effect.popped (b :: a :: r3) _ (by simp [h1])) fun hroom => sequential_answers ?_
    exact Effect.onStack (c :: b :: a :: r3) rfl (fun _ => hroom.fits_succ)
      (by simpa [h1] using (List.drop_suffix 1 r3).trans ((List.suffix_cons a r3).trans
        ((List.suffix_cons b _).trans (List.suffix_cons c _)))) fun _ h => by cases h
  | ret =>
    simp only [exec, execReturn]
    refine popR_answers (fun _ => Effect.popped s.vs _ le_rfl) fun a r h => ?_
    split_ifs with ha
    · exact raise_answers (.fault s.vs r _ (fun h => nomatch h) le_rfl (.inl (h ▸ List.suffix_cons a r)))
    · exact transfer_answers (.ret a r rfl h (not_le.1 ha))
  | add => exact binaryExpr_effect rfl fun _ h => by cases h
  | sub => exact binaryExpr_effect rfl fun _ h => by cases h
  | mul => exact binaryExpr_effect rfl fun _ h => by cases h
  | div =>
    simp only [exec, execDiv]
    refine popV_answers (fun _ => Effect.popped s.vs _ le_rfl) fun rhs r1 h1 => ?_
    refine popV_answers (fun _ => Effect.popped r1 _ (by simp [h1])) fun lhs r2 h2 => ?_
    rw [State.setVs_vs] at h2; subst h2
    split_ifs
    · exact raise_answers (Effect.popped r2 _ (by simp [h1]; omega))
    · refine pushV_answers (Effect.popped r2 _ (by simp [h1]; omega)) fun hroom => sequential_answers ?_
      exact Effect.onStack (BitVec.ofNat 32 (lhs.toNat / rhs.toNat) :: r2) rfl (fun _ => hroom.fits_succ)
        (by simpa [h1] using (List.drop_suffix 2 r2).trans (List.suffix_cons _ _)) fun _ h => by cases h
  | call target =>
    simp only [exec, execCall]
    refine pushR_answers (Effect.popped s.vs _ le_rfl) fun hroom => ?_
    exact resolve_answers (.fault s.vs ((s.pc + 1) :: s.rs) _ (fun h => nomatch h) le_rfl (.inr ⟨hroom, rfl⟩)) fun t ht =>
      transfer_answers (.call target t rfl ht hroom)
  | cmp =>
    simp only [exec, execCmp]
    refine popV_answers (fun _ => Effect.popped s.vs _ le_rfl) fun rhs r1 h1 => ?_
    refine popV_answers (fun _ => Effect.popped r1 _ (by simp [h1])) fun lhs r2 h2 => ?_
    rw [State.setVs_vs] at h2; subst h2
    refine pushV_answers (Effect.popped r2 _ (by simp [h1]; omega)) fun hroom => sequential_answers ?_
    exact Effect.onStack (cmpCode lhs rhs :: r2) rfl (fun _ => hroom.fits_succ)
      (by simpa [h1] using (List.drop_suffix 2 r2).trans (List.suffix_cons _ _)) fun _ h => by cases h
  | label id =>
    exact sequential_answers (Effect.onStack s.vs rfl (fun h => h) (List.drop_suffix 4 _) fun _ _ => rfl)
  | syscall => exact execSyscall_effect s
  | jumpUnconditional target =>
    exact resolve_answers (Effect.popped s.vs _ le_rfl) fun t ht =>
      transfer_answers (.jump s.vs target t rfl ht le_rfl (List.drop_suffix 4 _) fun _ _ => rfl)
  | jumpEqual target =>
    exact condJump_effect rfl rfl (fun _ h => by cases h) (fun _ h => by cases h)
  | jumpGreater target =>
    exact condJump_effect rfl rfl (fun _ h => by cases h) (fun _ h => by cases h)
  | jumpLesser target =>
    exact condJump_effect rfl rfl (fun _ h => by cases h) (fun _ h => by cases h)
  | jumpNotEqual target =>
    exact condJump_effect rfl rfl (fun _ h => by cases h) (fun _ h => by cases h)
  | load =>
    simp only [exec, execLoad]
    refine popV_answers (fun _ => Effect.popped s.vs _ le_rfl) fun addr r h => ?_
    refine checkCell_answers (Effect.popped r _ (by simp [h])) fun _ => ?_
    refine pushV_answers (Effect.popped r _ (by simp [h])) fun hroom => sequential_answers ?_
    exact Effect.onStack (Memory.read s.mem addr.toNat :: r) rfl (fun _ => hroom.fits_succ)
      (by simpa [h] using (List.drop_suffix 3 r).trans (List.suffix_cons _ _)) fun _ h => by cases h
  | store =>
    simp only [exec, execStore]
    refine popV_answers (fun _ => Effect.popped s.vs _ le_rfl) fun addr r1 h1 => ?_
    refine checkCell_answers (Effect.popped r1 _ (by simp [h1])) fun ha => ?_
    refine popV_answers (fun _ => Effect.popped r1 _ (by simp [h1])) fun v r2 h2 => sequential_answers ?_
    rw [State.setVs_vs] at h2; subst h2
    refine Effect.sequential r2 (Memory.write s.mem addr.toNat v) s.out.emitted rfl
      (fun hf => hf.mono (by simp [h1]; omega)) (by simpa [h1] using List.drop_suffix 2 r2) (fun _ h => by cases h)
      (.inr ⟨addr.toNat, [some v], rfl, by simp; omega, fun b hb hb' => ?_⟩) (.inl rfl)
    simp only [h1, storesTo, decide_eq_true_eq]
    simp only [List.length_singleton] at hb'
    omega
  | insertString text =>
    simp only [exec, execInsertString]
    refine popV_answers (fun _ => Effect.popped s.vs _ le_rfl) fun addr r h => ?_
    refine checkRange_answers (Effect.popped r _ (by simp [h])) fun hin => sequential_answers ?_
    simp only [inRange, Bool.and_eq_true, decide_eq_true_eq] at hin
    refine Effect.sequential r (Memory.writeRange s.mem addr.toNat (text.map byteToCell)) s.out.emitted rfl
      (fun hf => hf.mono (by simp [h])) (by simpa [h] using List.drop_suffix 3 r) (fun _ h => by cases h)
      (.inr ⟨addr.toNat, (text.map byteToCell).map some, rfl, by simpa using hin.2, fun b hb hb' => ?_⟩) (.inl rfl)
    simp only [h, storesTo, Bool.and_eq_true, decide_eq_true_eq]
    exact ⟨hb, by simpa using hb'⟩

end Sys2Proof.Machine
end

