-- ==== Sys2Proof/Laws/PerInstr.lean ====
section
/-! SUPPORT. Statements about every instruction, one lemma per constructor. -/

namespace Sys2Proof.Laws.DecodeEncode

/-- The encoding of a well-formed instruction is an opcode and its operand, and the decoder reads the instruction back
from it, whatever follows (30_encoding.md R75, R76). -/
def Statement (i : Instr) : Prop :=
  i.wf = true → ∀ (k : Nat) (rest : List Byte),
    ∃ op operand, encode i = op :: operand ∧ decodeOne k op (operand ++ rest) = .instr i rest

theorem push (v : Word) : Statement (.push v) := fun _ _ _ =>
  ⟨_, _, rfl, by simp [decodeOne, decodeF0, decodeFI, u32le_operandByte]⟩

theorem pop : Statement .pop := fun _ _ _ => ⟨_, _, rfl, rfl⟩

theorem dump : Statement .dump := fun _ _ _ => ⟨_, _, rfl, rfl⟩

theorem halt : Statement .halt := fun _ _ _ => ⟨_, _, rfl, rfl⟩

theorem dup : Statement .dup := fun _ _ _ => ⟨_, _, rfl, rfl⟩

theorem swap : Statement .swap := fun _ _ _ => ⟨_, _, rfl, rfl⟩

theorem rot : Statement .rot := fun _ _ _ => ⟨_, _, rfl, rfl⟩

theorem ret : Statement .ret := fun _ _ _ => ⟨_, _, rfl, rfl⟩

theorem add : Statement .add := fun _ _ _ => ⟨_, _, rfl, rfl⟩

theorem sub : Statement .sub := fun _ _ _ => ⟨_, _, rfl, rfl⟩

theorem mul : Statement .mul := fun _ _ _ => ⟨_, _, rfl, rfl⟩

theorem div : Statement .div := fun _ _ _ => ⟨_, _, rfl, rfl⟩

theorem call (target : Word) : Statement (.call target) := fun _ _ _ =>
  ⟨_, _, rfl, by simp [decodeOne, decodeF0, decodeFI, u32le_operandByte]⟩

theorem cmp : Statement .cmp := fun _ _ _ => ⟨_, _, rfl, rfl⟩

theorem label (id : Word) : Statement (.label id) := fun _ _ _ =>
  ⟨_, _, rfl, by simp [decodeOne, decodeF0, decodeFI, u32le_operandByte]⟩

theorem syscall : Statement .syscall := fun _ _ _ => ⟨_, _, rfl, rfl⟩

theorem jumpUnconditional (target : Word) : Statement (.jumpUnconditional target) := fun _ _ _ =>
  ⟨_, _, rfl, by simp [decodeOne, decodeF0, decodeFI, u32le_operandByte]⟩

theorem jumpEqual (target : Word) : Statement (.jumpEqual target) := fun _ _ _ =>
  ⟨_, _, rfl, by simp [decodeOne, decodeF0, decodeFI, u32le_operandByte]⟩

theorem jumpGreater (target : Word) : Statement (.jumpGreater target) := fun _ _ _ =>
  ⟨_, _, rfl, by simp [decodeOne, decodeF0, decodeFI, u32le_operandByte]⟩

theorem jumpLesser (target : Word) : Statement (.jumpLesser target) := fun _ _ _ =>
  ⟨_, _, rfl, by simp [decodeOne, decodeF0, decodeFI, u32le_operandByte]⟩

theorem jumpNotEqual (target : Word) : Statement (.jumpNotEqual target) := fun _ _ _ =>
  ⟨_, _, rfl, by simp [decodeOne, decodeF0, decodeFI, u32le_operandByte]⟩

theorem load : Statement .load := fun _ _ _ => ⟨_, _, rfl, rfl⟩

theorem store : Statement .store := fun _ _ _ => ⟨_, _, rfl, rfl⟩

theorem insertString (text : Text) : Statement (.insertString text) := fun h k rest =>
  ⟨_, _, rfl, by simp [decodeOne, decodeF0, decodeFI, opcodeFS, scanString_text text (k + 1) rest h]⟩

end Sys2Proof.Laws.DecodeEncode
end

