-- ==== Sys2Proof/Laws/Step.lean ====
section
/-! SUPPORT. What a step can do, said once (`step_cases`). -/

namespace Sys2Proof.Machine

/-- What the console's transcript gains when the debug stop after `i` answers a `mem` command. -/
def memAnswer (i : Instr) (s : State) (retraced : Bool) : List ConsoleEvent :=
  [.input (.line memCommand), .cells (Memory.readRange s.mem 0 Config.debugMemCells)] ++
    if retraced then [.trace i s.vs s.rs] else []

/-- What one read of the debug stop after `i` can do. -/
inductive ConsoleEffect (i : Instr) (s : State) : State → Prop where
  | wait (e : Env) : ConsoleEffect i s (s.setEnv e)
  | prompt (e : Env) (retraced : Bool) : ConsoleEffect i s
      ((s.setEnv e).setOut { s.out with console := s.out.console ++ memAnswer i s retraced })
  | resume (e : Env) (c : ConsoleInput) : ConsoleEffect i s ((((s.setEnv e).setOut
      { s.out with console := s.out.console ++ [.input c] }).setHold none).setPc (s.pc + 1))

theorem mem_prompt_eq (i : Instr) (s : State) :
    ((s.show (.input (.line memCommand))).printCells).reprompt i =
      (s.draw).setOut { s.out with console := s.out.console ++ memAnswer i s (Config.retrace s.env.draws) } := by
  by_cases h : Config.retrace s.env.draws = true <;>
    simp [State.reprompt, State.printCells, State.show, State.trace, State.draw, memAnswer, h, State.setOut, State.setEnv]

theorem consoleStep_effect (i : Instr) (s : State) : Answers (consoleStep i s) (ConsoleEffect i s) := by
  obtain ⟨e, he⟩ := consoleAnswer_env s
  unfold consoleStep
  rcases hc : consoleAnswer s with ⟨_ | c, s'⟩
  all_goals
    rw [hc] at he
    obtain rfl : s' = s.setEnv e := he
  · exact .next (.wait e)
  · dsimp only
    split_ifs with h
    · subst h
      rw [mem_prompt_eq]
      exact .next (.prompt _ _)
    · exact .next (.resume e c)

/-- A step of a running engine that waits for the host asks the host again. -/
theorem step_host {s : State} {c : HostCall} (hr : s.status = .running) (hh : s.hold = some (.host c)) :
    step s = callHost c s := by
  simp only [step, hr, hh, resume]

/-- A step that answers a next state was taken by a running engine: it waited for the host or at the console, completed
the run, or executed the instruction at `pc`. -/
theorem step_cases {s t : State} (h : step s = .next t) : s.status = .running ∧
    ((∃ c, s.hold = some (.host c) ∧ HostEffect c s t) ∨
     (∃ i, s.hold = some (.console i) ∧ ConsoleEffect i s t) ∨
     (s.hold = none ∧ s.pc = s.length ∧ t = s.setStatus .completed) ∨
     (s.hold = none ∧ s.pc < s.length ∧ ∃ i, fetch s = some i ∧ Effect i s t)) := by
  unfold step at h
  split at h
  · next hrun =>
    refine ⟨hrun, ?_⟩
    split at h
    · next hold hhold =>
      cases hold with
      | host c => exact .inl ⟨c, hhold, (callHost_effect c s).of_eq h⟩
      | console i => exact .inr (.inl ⟨i, hhold, (consoleStep_effect i s).of_eq h⟩)
    · next hhold =>
      unfold dispatch at h
      split_ifs at h with hpc
      · cases h
        exact .inr (.inr (.inl ⟨hhold, hpc, rfl⟩))
      · split at h
        · next i hi =>
          refine .inr (.inr (.inr ⟨hhold, ?_, i, hi, (exec_effect i s).of_eq h⟩))
          exact (List.getElem?_eq_some_iff.1 hi).1
        · cases h
  all_goals cases h

end Sys2Proof.Machine
end

