-- ==== Sys2Proof/Tests/Slice0.lean ====
section
/-! SUPPORT. Tests: expected results are from 95_test_vectors.md (the vector's name is in each comment) or from the cited
rule's own examples. Witnesses: concrete states that meet the hypotheses of each statement. Stacks are top first. -/

namespace Sys2Proof.Tests

open Sys2Proof.Machine

/-! ## WellFormed refuses ill-formed terms (30_encoding.md R65) -/

theorem test_wf_rejects_zero_byte : Instr.wf (.insertString [0x41#8, 0x00#8]) = false := by decide
theorem test_wf_rejects_non_ascii : Instr.wf (.insertString [0x80#8]) = false := by decide
theorem test_wf_accepts_edges : Instr.wf (.insertString [0x01#8, 0x7F#8]) = true := by decide

/-! ## Decoding, from words written out after R63 to R67 -/

theorem test_decode_push : decodeOne 0 0x01#8 [0x78#8, 0x56#8, 0x34#8, 0x12#8, 0x02#8] =
    .instr (.push 305419896#32) [0x02#8] := by decide
theorem test_decode_call : decodeOne 0 0x2F#8 [0x78#8, 0x56#8, 0x34#8, 0x12#8, 0x02#8] =
    .instr (.call 305419896#32) [0x02#8] := by decide
theorem test_decode_label : decodeOne 0 0x4C#8 [0x78#8, 0x56#8, 0x34#8, 0x12#8, 0x02#8] =
    .instr (.label 305419896#32) [0x02#8] := by decide
theorem test_decode_jumpUnconditional : decodeOne 0 0x6A#8 [0x78#8, 0x56#8, 0x34#8, 0x12#8, 0x02#8] =
    .instr (.jumpUnconditional 305419896#32) [0x02#8] := by decide
theorem test_decode_jumpEqual : decodeOne 0 0x6B#8 [0x78#8, 0x56#8, 0x34#8, 0x12#8, 0x02#8] =
    .instr (.jumpEqual 305419896#32) [0x02#8] := by decide
theorem test_decode_jumpGreater : decodeOne 0 0x6C#8 [0x78#8, 0x56#8, 0x34#8, 0x12#8, 0x02#8] =
    .instr (.jumpGreater 305419896#32) [0x02#8] := by decide
theorem test_decode_jumpLesser : decodeOne 0 0x6D#8 [0x78#8, 0x56#8, 0x34#8, 0x12#8, 0x02#8] =
    .instr (.jumpLesser 305419896#32) [0x02#8] := by decide
theorem test_decode_jumpNotEqual : decodeOne 0 0x6E#8 [0x78#8, 0x56#8, 0x34#8, 0x12#8, 0x02#8] =
    .instr (.jumpNotEqual 305419896#32) [0x02#8] := by decide
theorem test_decode_pop : decodeOne 0 0x02#8 [0x28#8] = .instr .pop [0x28#8] := by decide
theorem test_decode_dump : decodeOne 0 0x03#8 [0x28#8] = .instr .dump [0x28#8] := by decide
theorem test_decode_halt : decodeOne 0 0x04#8 [0x28#8] = .instr .halt [0x28#8] := by decide
theorem test_decode_dup : decodeOne 0 0x05#8 [0x28#8] = .instr .dup [0x28#8] := by decide
theorem test_decode_swap : decodeOne 0 0x06#8 [0x28#8] = .instr .swap [0x28#8] := by decide
theorem test_decode_rot : decodeOne 0 0x07#8 [0x28#8] = .instr .rot [0x28#8] := by decide
theorem test_decode_ret : decodeOne 0 0x0D#8 [0x28#8] = .instr .ret [0x28#8] := by decide
theorem test_decode_add : decodeOne 0 0x28#8 [0x28#8] = .instr .add [0x28#8] := by decide
theorem test_decode_sub : decodeOne 0 0x29#8 [0x28#8] = .instr .sub [0x28#8] := by decide
theorem test_decode_mul : decodeOne 0 0x2A#8 [0x28#8] = .instr .mul [0x28#8] := by decide
theorem test_decode_div : decodeOne 0 0x2B#8 [0x28#8] = .instr .div [0x28#8] := by decide
theorem test_decode_cmp : decodeOne 0 0x43#8 [0x28#8] = .instr .cmp [0x28#8] := by decide
theorem test_decode_syscall : decodeOne 0 0x53#8 [0x28#8] = .instr .syscall [0x28#8] := by decide
theorem test_decode_load : decodeOne 0 0x8A#8 [0x28#8] = .instr .load [0x28#8] := by decide
theorem test_decode_store : decodeOne 0 0x8B#8 [0x28#8] = .instr .store [0x28#8] := by decide
theorem test_decode_insertString : decodeOne 0 0x8C#8 [0x48#8, 0x69#8, 0x00#8, 0x02#8] =
    .instr (.insertString [0x48#8, 0x69#8]) [0x02#8] := by decide

/-! Whole streams (95_test_vectors.md sections 1 to 3) -/

theorem test_DEC4 : decodeProgram none
    [0x4C#8, 0x07#8, 0x00#8, 0x00#8, 0x00#8, 0x04#8, 0x4C#8, 0x07#8, 0x00#8, 0x00#8, 0x00#8] =
      .program [.label 7#32, .halt, .label 7#32] [(7, 2)] := by decide
theorem test_DEC5 : decodeProgram none
    [0x01#8, 0x02#8, 0x00#8] =
      .program [] [] := by decide
theorem test_DEC6 : decodeProgram none
    [0x05#8, 0x01#8, 0x02#8, 0x00#8, 0x00#8] =
      .program [.dup] [] := by decide
theorem test_DEC9 : decodeProgram none
    [0x02#8, 0xFF#8] =
      .refused (.illegalOpcode 1 0xFF#8) := by decide
theorem test_DEC11 : decodeProgram none
    [0x8C#8, 0x00#8] =
      .program [.insertString []] [] := by decide
theorem test_DEC12 : decodeProgram none
    [0x8C#8, 0x48#8, 0x69#8] =
      .program [] [] := by decide
theorem test_DEC13 : decodeProgram none
    [0x8C#8, 0x41#8, 0x80#8, 0x42#8, 0x00#8] =
      .refused (.nonAsciiString 2) := by decide
theorem test_DEC17 : decodeProgram none
    [0x6E#8, 0x01#8, 0x00#8, 0x00#8, 0x00#8, 0x4C#8, 0x01#8, 0x00#8, 0x00#8, 0x00#8] =
      .program [.jumpNotEqual 1#32, .label 1#32] [(1, 1)] := by decide
theorem test_S14 : decodeProgram none
    [0x4C#8, 0x01#8, 0x00#8, 0x00#8, 0x00#8, 0x01#8, 0x02#8, 0x00#8, 0x00#8, 0x00#8, 0x6A#8, 0x01#8, 0x00#8, 0x00#8, 0x00#8] =
      .program [.label 1#32, .push 2#32, .jumpUnconditional 1#32] [(1, 0)] := by decide
theorem test_P7 : decodeProgram none
    [0x01#8, 0x2A#8, 0x00#8, 0x00#8, 0x00#8, 0x03#8, 0x01#8, 0x05#8] =
      .program [.push 42#32, .dump] [] := by decide
/-- R70: with `IMEM_CAP = 1` the second instruction is one too many. -/
theorem test_program_too_large : decodeProgram (some 1) [0x05#8, 0x06#8] = .refused (.programTooLarge 1) := by decide
/-- R75: the encoding of `Push(0x12345678)`, least significant byte first. -/
theorem test_encode_push : encode (.push 0x12345678#32) = [0x01#8, 0x78#8, 0x56#8, 0x34#8, 0x12#8] := by decide
/-- The opcode table numbers bit 0 as the least significant of byte 0. -/
theorem test_table_word_push : decodeTableWord 40 0x1234567801 = some (.push 0x12345678#32) := by decide
theorem test_table_word_insertString : decodeTableWord 8 0x8C = some (.insertString []) := by decide
theorem test_table_word_refused : decodeTableWord 8 0x2C = none := by decide

/-! ## One instruction -/

/-- The state a result answers, if it answers one. -/
def after : Out → Option State
  | .next t => some t
  | .fault _ => none
  | .refused _ => none

/-- `pc = 8`, `N = 12`, `labels` as given by `labels = 5 -> 2` (95_test_vectors.md section 2.2), reset otherwise. -/
def base (vs : List Word) (mem : Memory := []) : State :=
  { State.reset with
    prog := [.pop, .pop, .label 5#32, .pop, .pop, .pop, .pop, .pop, .pop, .pop, .pop, .pop],
    labels := [(5, 2)], pc := 8, vs := vs, mem := mem }

/-- `base` with the host's next answer settled. -/
def answered (vs : List Word) (mem : Memory) (r : Option HostReply) : State :=
  (base vs mem).setEnv { hostIn := [r], consoleIn := [], draws := 0 }

/-- STK2. -/
theorem test_push_max : (after (exec (.push 4294967295#32) (base [1#32]))).map
    (fun t => (t.vs, t.pc)) = some (([4294967295#32, 1#32], 9)) := by decide
/-- STK3. -/
theorem test_pop : (after (exec .pop (base [2#32, 1#32]))).map
    (fun t => (t.vs, t.pc)) = some (([1#32], 9)) := by decide
/-- STK4. -/
theorem test_pop_empty : (after (exec .pop (base []))).map
    (fun t => t.status) = some (.faulted .stackUnderflow 8) := by decide
/-- STK5. -/
theorem test_dup : (after (exec .dup (base [2#32, 1#32]))).map
    (fun t => (t.vs, t.pc)) = some (([2#32, 2#32, 1#32], 9)) := by decide
/-- STK6. -/
theorem test_dup_empty : (after (exec .dup (base []))).map
    (fun t => (t.vs, t.pc)) = some (([], 9)) := by decide
/-- STK7. -/
theorem test_swap : (after (exec .swap (base [3#32, 2#32, 1#32]))).map
    (fun t => (t.vs, t.pc)) = some (([2#32, 3#32, 1#32], 9)) := by decide
/-- STK8. -/
theorem test_swap_short : (after (exec .swap (base [5#32]))).map
    (fun t => t.status) = some (.faulted .stackUnderflow 8) := by decide
/-- STK11. -/
theorem test_rot : (after (exec .rot (base [3#32, 2#32, 1#32, 9#32]))).map
    (fun t => (t.vs, t.pc)) = some (([1#32, 2#32, 3#32, 9#32], 9)) := by decide
/-- STK12. -/
theorem test_rot_short : (after (exec .rot (base [2#32, 1#32]))).map
    (fun t => t.status) = some (.faulted .stackUnderflow 8) := by decide
/-- STK13. -/
theorem test_dump : (after (exec .dump (base [5#32, 7#32]))).map
    (fun t => (t.vs, t.out.emitted)) = some (([7#32], [5#32])) := by decide
/-- STK15. -/
theorem test_cmp_lesser : (after (exec .cmp (base [4294967295#32, 0#32]))).map
    (fun t => (t.vs, t.pc)) = some (([2#32], 9)) := by decide
/-- STK16. -/
theorem test_cmp_greater : (after (exec .cmp (base [0#32, 4294967295#32]))).map
    (fun t => (t.vs, t.pc)) = some (([1#32], 9)) := by decide
/-- MEM2. -/
theorem test_load_last : (after (exec .load (base [9999#32] [(9999, 77#32)]))).map
    (fun t => (t.vs, t.pc)) = some (([77#32], 9)) := by decide
/-- MEM3. -/
theorem test_load_out : (after (exec .load (base [4294967295#32]))).map
    (fun t => t.status) = some (.faulted .outOfBounds 8) := by decide
/-- MEM4. -/
theorem test_store : (after (exec .store (base [3#32, 42#32]))).map
    (fun t => (t.vs, t.mem)) = some (([], [(3, 42#32)])) := by decide
/-- MEM5. -/
theorem test_store_bound_first : (after (exec .store (base [10000#32]))).map
    (fun t => t.status) = some (.faulted .outOfBounds 8) := by decide
/-- MEM8. -/
theorem test_insertString : (after (exec (.insertString [0x48#8, 0x69#8]) (base [100#32] [(102, 5#32)]))).map
    (fun t => (t.vs, t.mem)) = some (([], [(100, 72#32), (101, 105#32), (102, 5#32)])) := by decide
/-- MEM10. -/
theorem test_insertString_end : (after (exec (.insertString [0x48#8, 0x69#8]) (base [9999#32]))).map
    (fun t => t.status) = some (.faulted .outOfBounds 8) := by decide
/-- ALU2. -/
theorem test_add_max : (after (exec .add (base [0#32, 4294967295#32]))).map
    (fun t => (t.vs, t.pc)) = some (([4294967295#32], 9)) := by decide
/-- ALU3. -/
theorem test_add_overflow : (after (exec .add (base [1#32, 4294967295#32]))).map
    (fun t => t.status) = some (.faulted .arithmeticOverflow 8) := by decide
/-- ALU5. -/
theorem test_sub : (after (exec .sub (base [2#32, 5#32]))).map
    (fun t => (t.vs, t.pc)) = some (([3#32], 9)) := by decide
/-- ALU7. -/
theorem test_sub_below_zero : (after (exec .sub (base [1#32, 0#32]))).map
    (fun t => t.status) = some (.faulted .arithmeticOverflow 8) := by decide
/-- ALU11. -/
theorem test_mul_fits : (after (exec .mul (base [65535#32, 65536#32]))).map
    (fun t => (t.vs, t.pc)) = some (([4294901760#32], 9)) := by decide
/-- ALU12. -/
theorem test_mul_overflow : (after (exec .mul (base [65536#32, 65536#32]))).map
    (fun t => t.status) = some (.faulted .arithmeticOverflow 8) := by decide
/-- ALU14. -/
theorem test_div_floor : (after (exec .div (base [2#32, 7#32]))).map
    (fun t => (t.vs, t.pc)) = some (([3#32], 9)) := by decide
/-- ALU19. -/
theorem test_div_zero : (after (exec .div (base [0#32, 0#32]))).map
    (fun t => t.status) = some (.faulted .divideByZero 8) := by decide
/-- CTL1. -/
theorem test_jumpEqual_taken : (after (exec (.jumpEqual 5#32) (base [0#32]))).map
    (fun t => (t.vs, t.pc)) = some (([], 2)) := by decide
/-- CTL10. -/
theorem test_jumpEqual_undeclared_not_taken : (after (exec (.jumpEqual 6#32) (base [1#32]))).map
    (fun t => (t.vs, t.pc)) = some (([], 9)) := by decide
/-- CTL4. -/
theorem test_jumpNotEqual_taken : (after (exec (.jumpNotEqual 5#32) (base [7#32]))).map
    (fun t => (t.vs, t.pc)) = some (([], 2)) := by decide
/-- CTL5. -/
theorem test_jumpNotEqual_not_taken : (after (exec (.jumpNotEqual 5#32) (base [0#32]))).map
    (fun t => (t.vs, t.pc)) = some (([], 9)) := by decide
/-- CTL6. -/
theorem test_jumpGreater_taken : (after (exec (.jumpGreater 5#32) (base [1#32]))).map
    (fun t => (t.vs, t.pc)) = some (([], 2)) := by decide
/-- CTL7. -/
theorem test_jumpGreater_not_taken : (after (exec (.jumpGreater 5#32) (base [7#32]))).map
    (fun t => (t.vs, t.pc)) = some (([], 9)) := by decide
/-- CTL8. -/
theorem test_jumpLesser_taken : (after (exec (.jumpLesser 5#32) (base [2#32]))).map
    (fun t => (t.vs, t.pc)) = some (([], 2)) := by decide
/-- CTL9. -/
theorem test_jumpLesser_not_taken : (after (exec (.jumpLesser 5#32) (base [3#32]))).map
    (fun t => (t.vs, t.pc)) = some (([], 9)) := by decide
/-- CTL13. -/
theorem test_jumpUnconditional : (after (exec (.jumpUnconditional 5#32) (base []))).map
    (fun t => (t.vs, t.pc)) = some (([], 2)) := by decide
/-- S12. -/
theorem test_jumpUnconditional_undeclared : (after (exec (.jumpUnconditional 999#32) (base []))).map
    (fun t => t.status) = some (.faulted (.unknownLabel 999#32) 8) := by decide
/-- CTL14. -/
theorem test_call : (after (exec (.call 5#32) (base [4#32]))).map
    (fun t => (t.rs, t.pc, t.vs)) = some (([9], 2, [4#32])) := by decide
/-- CTL15. -/
theorem test_call_undeclared : (after (exec (.call 6#32) (base []))).map
    (fun t => t.status) = some (.faulted (.unknownLabel 6#32) 8) := by decide
/-- CTL16. -/
theorem test_return : (after (exec .ret ((base []).setRs [9]))).map
    (fun t => (t.rs, t.pc)) = some (([], 9)) := by decide
/-- CTL17. -/
theorem test_return_to_end : (after (exec .ret ((base []).setRs [12]))).map
    (fun t => t.status) = some (.faulted .outOfBounds 8) := by decide
/-- CTL19. -/
theorem test_halt : (after (exec .halt (base [2#32, 1#32]))).map
    (fun t => (t.status, t.vs, t.pc)) = some ((.halted, [2#32, 1#32], 8)) := by decide
/-- CTL20. -/
theorem test_label : (after (exec (.label 5#32) (base [3#32]))).map
    (fun t => (t.vs, t.pc)) = some (([3#32], 9)) := by decide
/-- SYS1. -/
theorem test_syscall_unknown : (after (exec .syscall (base [4#32]))).map
    (fun t => t.status) = some (.faulted .unknownSyscall 8) := by decide
/-- SYS5. -/
theorem test_syscall_write : (after (exec .syscall (answered [1#32, 1#32, 100#32, 1#32] [(100, 0x141#32)] (some (.ok [] [] 0#32))))).map
    (fun t => (t.vs, t.out.hostLog.map (fun e => e.1))) = some (([], [.write 1#32 [0x41#8]])) := by decide
/-- SYS10. -/
theorem test_syscall_read : (after (exec .syscall (answered [0#32, 0#32, 200#32, 4#32] [(202, 9#32)] (some (.ok [0x6F#8, 0x6B#8] [none, some 0xFF#8] 0#32))))).map
    (fun t => (t.vs, t.mem)) = some (([], [(200, 111#32), (201, 107#32), (202, 9#32), (203, 255#32)])) := by decide
/-- SYS6. -/
theorem test_syscall_write_range : (after (exec .syscall (base [1#32, 1#32, 9999#32, 2#32]))).map
    (fun t => t.status) = some (.faulted .outOfBounds 8) := by decide
/-- SYS16. -/
theorem test_syscall_close : (after (exec .syscall (answered [3#32, 5#32] [] (some (.ok [] [] 0#32))))).map
    (fun t => (t.vs, t.out.hostLog.map (fun e => e.1))) = some (([], [.close 5#32])) := by decide
/-- SYS13. -/
theorem test_syscall_open_no_zero : (after (exec .syscall (base [2#32, 9999#32, 0#32] [(9999, 97#32)]))).map
    (fun t => t.status) = some (.faulted .outOfBounds 8) := by decide
/-- SYS12: the path and flags go to the host, the descriptor is discarded. -/
theorem test_syscall_open : (after (exec .syscall (answered [2#32, 300#32, 0#32] [(300, 97#32), (301, 98#32)]
    (some (.ok [] [] 3#32))))).map (fun t => (t.vs, t.out.hostLog)) =
      some ([], [(.openFile [0x61#8, 0x62#8] 0#32 Config.openMode, .ok [] [] 3#32)]) := rfl
/-- R179: no reply has come, so the engine holds. -/
theorem test_syscall_waits : (after (exec .syscall (answered [3#32, 5#32] [] none))).map (fun t => (t.hold, t.pc)) =
    some (some (.host (.close 5#32)), 8) := by decide
/-- R15, R200: a push onto a full stack. -/
theorem test_push_overflow : (after (exec (.push 1#32)
    { base [7#32] with params := { vstackCap := some 1, rstackCap := none, imemCap := none } })).map
      (fun t => t.status) = some (.faulted .stackOverflow 8) := by decide

/-! ## One step -/

/-- R90: at `pc = N` the run completes. -/
theorem test_step_completes : (after (step State.reset)).map (fun t => t.status) = some .completed := by decide
/-- The first instruction after reset, `Push(2)`, as the opcode table's word. -/
theorem test_step_fetch_word : (after (step (State.reset.withFetchWord 40 0x0000000201))).map (fun t => (t.vs, t.pc)) =
    some ([2#32], 1) := by decide
/-- R215: with `debug` the instruction is traced and the engine stops before `pc + 1`. -/
theorem test_debug_stop : (after (step { State.reset with prog := [.push 2#32], debug := true })).map
    (fun t => (t.pc, t.hold, t.out.console)) =
      some (0, some (.console (.push 2#32)), [.trace (.push 2#32) [2#32] []]) := by decide
/-- R215: any other line resumes. -/
theorem test_debug_resume : (after (step
    { State.reset with
      prog := [.pop], debug := true, hold := some (.console .pop),
      env := { hostIn := [], consoleIn := [some (.line [0x0A#8])], draws := 0 } })).map (fun t => (t.pc, t.hold)) =
        some (1, none) := by decide
/-- R203: a faulted run takes no further step. -/
theorem test_step_after_fault : after (step (State.reset.setStatus (.faulted .stackUnderflow 0))) = none := by decide

/-! ## Witnesses: states and operands that meet the hypotheses of each statement, clause by clause -/

/-- `base` with finite capacities: the value stack may hold `v` entries, the return stack `r`. -/
def capped (v r : Nat) (vs : List Word) (rs : List Nat) : State :=
  { base vs with rs := rs, params := { vstackCap := some v, rstackCap := some r, imemCap := none } }

/-- A run just started, by its fields. -/
def started : State := State.start Params.default false [.push 2#32, .syscall] []

/-- A run waiting for the host in a call `c` at index 1. -/
def waiting (c : HostCall) (r : Option HostReply) : State :=
  { started with
    pc := 1, hold := some (.host c), env := { hostIn := [r], consoleIn := [], draws := 0 } }

/-- `base` with `debug` set. -/
def debugging (vs : List Word) : State := { base vs with debug := true }

/-- A run stopped after `Pop` at index 0, with the next console answer settled. -/
def stopped (c : Option ConsoleInput) : State :=
  { State.start Params.default true [.pop] [] with
    hold := some (.console .pop), env := { hostIn := [], consoleIn := [c], draws := 0 } }

theorem started_inv : started.Inv := by
  constructor <;> simp [started, State.start, State.reset, Params.default, State.length] <;> decide

theorem waiting_inv (r : Option HostReply) : (waiting (.read 0#32 9998#32 2#32) r).Inv := by
  constructor <;> simp [waiting, started, State.start, State.reset, Params.default, State.length, fetch] <;> decide

theorem waiting_close_inv (r : Option HostReply) : (waiting (.close 5#32) r).Inv := by
  constructor <;> simp [waiting, started, State.start, State.reset, Params.default, State.length, fetch] <;> decide

theorem wit_DecodingAnEncodedProgramGivesItBack :
    ∀ i ∈ [Instr.push 4294967295#32, .label 7#32, .insertString [0x01#8, 0x7F#8], .label 7#32, .halt],
      i.wf = true := by decide

theorem wit_TruncatedLastInstructionIsDropped : (∀ i ∈ [Instr.dup], i.wf = true) ∧
    (Instr.wf (.push 1#32) = true ∧ 4 < (encode (.push 1#32)).length) ∧
    (Instr.wf (.insertString [0x41#8]) = true ∧ 2 < (encode (.insertString [0x41#8])).length) ∧
    decodeF0 0x8B#8 = some .store := by decide

theorem wit_NonOpcodeBytesRefuseTheProgram : (∀ i ∈ [Instr.dup], i.wf = true) ∧
    (∀ op ∈ [0x00#8, 0x08#8, 0x0C#8, 0x0E#8, 0x27#8, 0x2C#8, 0x6F#8, 0x8D#8, 0xFF#8], illegalOpcode op = true) ∧
    (∀ op ∈ [0x01#8, 0x07#8, 0x0D#8, 0x28#8, 0x2B#8, 0x6E#8, 0x8A#8, 0x8C#8], illegalOpcode op = false) ∧
    [0x01#8, 0x7F#8].all stringByteOk = true := by decide

theorem wit_NonOpcodeBytesRefuseTheProgram_operand : decodeFI 0x6E#8 = some .jumpNotEqual := rfl

theorem wit_RefusedStreamsNameTheirOffset : (∀ i ∈ [Instr.dup], i.wf = true) ∧ Fits (some 1) [Instr.dup].length ∧
    illegalOpcode 0xFF#8 = true ∧ ([0x41#8].all stringByteOk = true ∧ 128 ≤ (0x80#8).toNat) ∧
    (Instr.wf .swap = true ∧ (some 1 : Option Nat) = some [Instr.dup].length) ∧ Params.default.imemCap = none := by
  decide

theorem wit_StartOfARun : decodeProgram Params.default.imemCap [0x04#8] = .program [.halt] [] := by decide

theorem wit_FirstDecodedInstructionRunsFirst : decodeOne 0 0x05#8 [0x06#8] = .instr .dup [0x06#8] ∧
    boot Params.default true [0x05#8, 0x06#8] = .next (State.start Params.default true [.dup, .swap] []) :=
  ⟨rfl, rfl⟩

theorem wit_StepRunsTheInstructionAtPc : (started.status = .running ∧ started.hold = none ∧
    started.pc < started.length ∧ started.prog[started.pc]? = some (.push 2#32)) ∧
    (State.reset.status = .running ∧ State.reset.hold = none ∧ State.reset.pc = State.reset.length) := by decide

theorem wit_EndedRunTakesNoStep : (started.setStatus .halted).status ≠ .running := by decide

theorem wit_BootMeetsTheInvariant :
    boot Params.default true [0x05#8, 0x06#8] = .next (State.start Params.default true [.dup, .swap] []) := rfl

theorem wit_StepKeepsTheInvariant : started.Inv ∧ step started = .next ((started.setVs [2#32]).setPc 1) :=
  ⟨started_inv, rfl⟩

theorem wit_RunningEngineAlwaysSteps : started.Inv ∧ started.status = .running := ⟨started_inv, rfl⟩

theorem wit_StepKeepsProgramLabelsAndDebug : step started = .next ((started.setVs [2#32]).setPc 1) := rfl

theorem wit_RaisedFaultEndsTheRun : (base []).status = .running ∧ (base []).hold = none ∧
    exec .pop (base []) = .next ((base []).setStatus (.faulted .stackUnderflow 8)) ∧
    ((base []).setStatus (.faulted .stackUnderflow 8)).status = .faulted .stackUnderflow 8 := ⟨rfl, rfl, rfl, rfl⟩

theorem wit_NoDebugStopAfterControlTransfer :
    LabelTable.index? (base [0#32]).labels 5#32 = some 2 ∧ (base [0#32]).vs = 0#32 :: [] ∧
    (base [7#32]).vs = 7#32 :: [] ∧ 7#32 ≠ 0#32 ∧ HasRoom (capped 1 1 [] []).params.rstackCap 0 ∧
    (((base []).setRs [11]).rs = 11 :: [] ∧ 11 < ((base []).setRs [11]).length) ∧
    (debugging [0#32]).debug = true := by decide

/-- For the last clause: `debug` set and a popped code of 7 (neither 0, 1 nor 2), or 0. -/
theorem wit_NoDebugStopAfterControlTransfer_notTaken :
    ((debugging [7#32, 9#32]).vs = 7#32 :: [9#32] ∧ (debugging [7#32, 9#32]).debug = true ∧
      7#32 ≠ 0#32 ∧ 7#32 ≠ 1#32 ∧ 7#32 ≠ 2#32) ∧
    ((debugging [0#32]).vs = 0#32 :: [] ∧ (debugging [0#32]).debug = true) := by decide

/-- For the clause on faults, with `debug` set. -/
theorem wit_NoDebugStopAfterControlTransfer_fault :
    (debugging []).status = .running ∧ (debugging []).hold = none ∧
    exec .pop (debugging []) = .next ((debugging []).setStatus (.faulted .stackUnderflow 8)) ∧
    ((debugging []).setStatus (.faulted .stackUnderflow 8)).status = .faulted .stackUnderflow 8 := ⟨rfl, rfl, rfl, rfl⟩

theorem wit_EndOfRunObservation : started.status = .running ∧ (started.setStatus .completed).status = .completed ∧
    (started.setStatus .halted).status = .halted ∧
    (started.setStatus (.faulted .divideByZero 0)).status = .faulted .divideByZero 0 := by decide

theorem wit_SequentialEndAdvancesPc : (base []).debug = false := by decide

theorem wit_PushPushesItsLiteral : HasRoom (capped 1 0 [] []).params.vstackCap (capped 1 0 [] []).vs.length ∧
    ¬ HasRoom (capped 1 0 [3#32] []).params.vstackCap (capped 1 0 [3#32] []).vs.length := by decide

theorem wit_PopDropsTheTop : (base [2#32, 1#32]).vs = 2#32 :: [1#32] ∧ (base []).vs = [] := by decide

theorem wit_DupDuplicatesTheTop : (base []).vs = [] ∧
    ((capped 2 0 [3#32] []).vs = 3#32 :: [] ∧
      HasRoom (capped 2 0 [3#32] []).params.vstackCap (capped 2 0 [3#32] []).vs.length) ∧
    ((capped 1 0 [3#32] []).vs ≠ [] ∧
      ¬ HasRoom (capped 1 0 [3#32] []).params.vstackCap (capped 1 0 [3#32] []).vs.length) := by decide

theorem wit_SwapExchangesTheTopTwo :
    (Fits (capped 2 0 [2#32, 1#32] []).params.vstackCap 2 ∧ (capped 2 0 [2#32, 1#32] []).vs = 2#32 :: 1#32 :: []) ∧
    (Fits (capped 2 0 [5#32] []).params.vstackCap 1 ∧ (capped 2 0 [5#32] []).vs.length < 2) := by decide

theorem wit_RotReversesTheTopThree :
    (Fits (capped 3 0 [3#32, 2#32, 1#32] []).params.vstackCap 3 ∧
      (capped 3 0 [3#32, 2#32, 1#32] []).vs = 3#32 :: 2#32 :: 1#32 :: []) ∧
    (Fits (capped 3 0 [2#32, 1#32] []).params.vstackCap 2 ∧ (capped 3 0 [2#32, 1#32] []).vs.length < 3) := by decide

theorem wit_DumpEmitsTheTop : (base [5#32, 7#32]).vs = 5#32 :: [7#32] ∧ (base []).vs = [] := by decide

theorem wit_CmpPushesTheComparisonCode :
    Fits (capped 2 0 [9#32, 9#32] []).params.vstackCap 2 ∧ (capped 2 0 [9#32, 9#32] []).vs = 9#32 :: 9#32 :: [] ∧
    (0#32).toNat < (4294967295#32).toNat ∧ (base [1#32]).vs.length < 2 := by decide

theorem wit_LoadPushesTheCell :
    ((capped 1 0 [9999#32] []).vs = 9999#32 :: [] ∧ (9999#32).toNat < Config.cap ∧
      Fits (capped 1 0 [9999#32] []).params.vstackCap 1) ∧
    ((base [10000#32]).vs = 10000#32 :: [] ∧ Config.cap ≤ (10000#32).toNat) ∧ (base []).vs = [] := by decide

theorem wit_StoreWritesTheCell : Memory.wf (base [9999#32, 8#32] [(0, 1#32), (9999, 2#32)]).mem = true ∧
    ((base [9999#32, 8#32]).vs = 9999#32 :: 8#32 :: [] ∧ (9999#32).toNat < Config.cap) ∧
    ((base [10000#32]).vs = 10000#32 :: [] ∧ Config.cap ≤ (10000#32).toNat) ∧
    ((base [5#32]).vs = [5#32] ∧ (5#32).toNat < Config.cap) ∧ (base []).vs = [] := by decide

theorem wit_InsertStringWritesItsText : Memory.wf (base [9998#32] [(100, 5#32)]).mem = true ∧
    ((base [9998#32]).vs = 9998#32 :: [] ∧ (9998#32).toNat < Config.cap ∧
      (9998#32).toNat + [0x48#8, 0x69#8].length ≤ Config.cap) ∧
    (Config.cap ≤ (10000#32).toNat ∧ Config.cap < (9999#32).toNat + [0x48#8, 0x69#8].length) ∧
    (base []).vs = [] := by decide

theorem wit_StoreThenLoadReadsTheStoredValue :
    (capped 2 0 [9999#32, 8#32] []).vs = 9999#32 :: 8#32 :: [] ∧ (9999#32).toNat < Config.cap ∧
    Memory.wf (capped 2 0 [9999#32, 8#32] []).mem = true ∧ Fits (capped 2 0 [9999#32, 8#32] []).params.vstackCap 2 := by
  decide

theorem wit_AddIsExactOrFaults : Fits (capped 2 0 [0#32, 4294967295#32] []).params.vstackCap 2 ∧
    (base [0#32, 4294967295#32]).vs = 0#32 :: 4294967295#32 :: [] ∧
    (4294967295#32).toNat + (0#32).toNat ≤ 4294967295 ∧ 4294967295 < (4294967295#32).toNat + (1#32).toNat ∧
    (base [1#32]).vs.length < 2 := by decide

theorem wit_SubIsExactOrFaults : Fits (capped 2 0 [3#32, 3#32] []).params.vstackCap 2 ∧
    (base [3#32, 3#32]).vs = 3#32 :: 3#32 :: [] ∧ (3#32).toNat ≤ (3#32).toNat ∧ (0#32).toNat < (1#32).toNat ∧
    (base [1#32]).vs.length < 2 := by decide

theorem wit_MulIsExactOrFaults : Fits (capped 2 0 [65535#32, 65536#32] []).params.vstackCap 2 ∧
    (base [65535#32, 65536#32]).vs = 65535#32 :: 65536#32 :: [] ∧ (65536#32).toNat * (65535#32).toNat ≤ 4294967295 ∧
    4294967295 < (65536#32).toNat * (65536#32).toNat ∧ (base [1#32]).vs.length < 2 := by decide

theorem wit_DivIsFloorOrFaults : Fits (capped 2 0 [2#32, 7#32] []).params.vstackCap 2 ∧
    (base [2#32, 7#32]).vs = 2#32 :: 7#32 :: [] ∧ 2#32 ≠ 0#32 ∧ (base [0#32, 0#32]).vs = 0#32 :: 0#32 :: [] ∧
    (base [0#32]).vs.length < 2 := by decide

theorem wit_JumpUnconditionalGoesToItsLabel : LabelTable.index? (base []).labels 5#32 = some 2 ∧
    LabelTable.index? (base []).labels 999#32 = none := by decide

theorem wit_ConditionalJumpsTestThePoppedCode : (base [0#32]).vs = 0#32 :: [] ∧
    LabelTable.index? (base []).labels 5#32 = some 2 ∧ LabelTable.index? (base []).labels 6#32 = none ∧
    (7#32 ≠ 0#32 ∧ ¬ 7#32 = 1#32 ∧ ¬ 3#32 = 2#32) ∧ (base []).vs = [] := by decide

theorem wit_CallPushesTheReturnAddress :
    HasRoom (capped 0 2 [] [1]).params.rstackCap (capped 0 2 [] [1]).rs.length ∧
    LabelTable.index? (capped 0 2 [] [1]).labels 5#32 = some 2 ∧
    LabelTable.index? (capped 0 2 [] [1]).labels 6#32 = none ∧
    ¬ HasRoom (capped 0 1 [] [1]).params.rstackCap (capped 0 1 [] [1]).rs.length := by decide

theorem wit_ReturnPopsTheReturnAddress : ((base []).setRs [11]).rs = 11 :: [] ∧ 11 < (base []).length ∧
    (base []).length ≤ 12 ∧ (base []).rs = [] := by decide

theorem wit_UnknownSyscallCodesFault : (base [4#32]).vs = 4#32 :: [] ∧ 4 ≤ (4#32).toNat := by decide

theorem wit_SyscallUnderflow : (base []).vs = [] ∧ ((base [0#32, 1#32, 100#32]).vs = 0#32 :: [1#32, 100#32] ∧
    [1#32, 100#32].length < 3) ∧ ((base [2#32, 9#32]).vs = 2#32 :: [9#32] ∧ [9#32].length < 2) ∧
    (base [3#32]).vs = [3#32] := by decide

/-- Every answer of the host to a Read of the last two cells, with at most two bytes. -/
theorem wit_SyscallReadFillsTheBuffer (r : Option HostReply) :
    (answered [0#32, 0#32, 9998#32, 2#32] [(9999, 7#32)] r).vs = 0#32 :: 0#32 :: 9998#32 :: 2#32 :: [] ∧
    Memory.wf (answered [0#32, 0#32, 9998#32, 2#32] [(9999, 7#32)] r).mem = true ∧
    (9998#32).toNat < Config.cap ∧ (9998#32).toNat + (2#32).toNat ≤ Config.cap ∧
    (hostAnswer (.read 0#32 2#32) ((answered [0#32, 0#32, 9998#32, 2#32] [(9999, 7#32)] r).setVs [])).1 = r ∧
    [0x6F#8, 0x6B#8].length ≤ (2#32).toNat ∧
    (Config.cap ≤ (10000#32).toNat ∧ Config.cap < (9999#32).toNat + (2#32).toNat) :=
  ⟨rfl, rfl, by decide, by decide, rfl, by decide, by decide⟩

/-- Every answer of the host to a Write of one cell. -/
theorem wit_SyscallWriteSendsTheCells (r : Option HostReply) :
    (answered [1#32, 1#32, 9999#32, 1#32] [(9999, 0x141#32)] r).vs = 1#32 :: 1#32 :: 9999#32 :: 1#32 :: [] ∧
    (9999#32).toNat < Config.cap ∧ (9999#32).toNat + (1#32).toNat ≤ Config.cap ∧
    (hostAnswer (.write 1#32 [0x41#8])
      ((answered [1#32, 1#32, 9999#32, 1#32] [(9999, 0x141#32)] r).setVs [])).1 = r ∧
    Config.cap ≤ (10000#32).toNat ∧ Config.cap < (9999#32).toNat + (2#32).toNat :=
  ⟨rfl, by decide, by decide, rfl, by decide, by decide⟩

/-- Every answer of the host to an Open of the path of cell 9998, ended by cell 9999. -/
theorem wit_SyscallOpenSendsThePath (r : Option HostReply) :
    (answered [2#32, 9998#32, 0#32] [(9998, 97#32)] r).vs = 2#32 :: 9998#32 :: 0#32 :: [] ∧
    (9998#32).toNat + 1 < Config.cap ∧ Memory.read [(9998, 97#32)] ((9998#32).toNat + 1) = 0#32 ∧
    Memory.read [(9998, 97#32)] ((9998#32).toNat + 0) ≠ 0#32 ∧
    (hostAnswer (.openFile [0x61#8] 0#32 Config.openMode)
      ((answered [2#32, 9998#32, 0#32] [(9998, 97#32)] r).setVs [])).1 = r ∧
    (Config.cap ≤ (10000#32).toNat ∧ Memory.read [(9999, 97#32)] 9999 ≠ 0#32) :=
  ⟨rfl, by decide, by decide, by decide, rfl, by decide⟩

/-- Every answer of the host to a Close. -/
theorem wit_SyscallCloseSendsTheDescriptor (r : Option HostReply) :
    (answered [3#32, 5#32] [] r).vs = 3#32 :: 5#32 :: [] ∧
    (hostAnswer (.close 5#32) ((answered [3#32, 5#32] [] r).setVs [])).1 = r := ⟨rfl, rfl⟩

theorem wit_HostAnswersFromTheOutside : (answered [] [] none).env.hostIn = none :: [] ∧ State.reset.env.hostIn = [] := by
  decide

/-- Every answer of the host during a wait. -/
theorem wit_HoldLastsUntilTheHostReplies (r : Option HostReply) :
    (waiting (.close 5#32) r).status = .running ∧ (waiting (.close 5#32) r).hold = some (.host (.close 5#32)) ∧
    (hostAnswer (hostRequest (.close 5#32)) (waiting (.close 5#32) r)).1 = r ∧ (waiting (.close 5#32) r).Inv :=
  ⟨rfl, rfl, rfl, waiting_close_inv r⟩

/-- Every answer to a Read that waits, and a reply of as many bytes as it asked for. -/
theorem wit_HoldLastsUntilTheHostReplies_read (r : Option HostReply) :
    (waiting (.read 0#32 9998#32 2#32) r).status = .running ∧
    (waiting (.read 0#32 9998#32 2#32) r).hold = some (.host (.read 0#32 9998#32 2#32)) ∧
    (hostAnswer (hostRequest (.read 0#32 9998#32 2#32)) (waiting (.read 0#32 9998#32 2#32) r)).1 = r ∧
    (waiting (.read 0#32 9998#32 2#32) r).Inv ∧ [0x6F#8, 0x6B#8].length ≤ (2#32).toNat :=
  ⟨rfl, rfl, rfl, waiting_inv r, by decide⟩

/-- 44_syscall.md R172's example with a buffer of three cells and its reply late: two bytes, then a kept cell (R177). -/
theorem test_late_read_reply :
    (after (step (waiting (.read 0#32 200#32 3#32) (some (.ok [0x6F#8, 0x6B#8] [none] 0#32))))).map
      (fun t => (t.mem, t.pc, t.hold)) = some ([(200, 111#32), (201, 107#32)], 2, none) := by decide

/-- No reply, a success and a failure to a Read that waits. -/
theorem wit_HostTouchesOnlyTheReadBuffer : ∀ r ∈ [none, some (.ok [0x6F#8] [] 0#32), some (.fail [0x45#8])],
    (waiting (.read 0#32 9998#32 2#32) r).Inv ∧
    (waiting (.read 0#32 9998#32 2#32) r).hold = some (.host (.read 0#32 9998#32 2#32)) ∧
    (hostAnswer (hostRequest (.read 0#32 9998#32 2#32)) (waiting (.read 0#32 9998#32 2#32) r)).1 = r ∧
    (∃ t, step (waiting (.read 0#32 9998#32 2#32) r) = .next t) ∧
    (9997 < (9998#32).toNat ∧ (9998#32).toNat + (2#32).toNat ≤ 10000) := by
  refine fun r hr => ⟨waiting_inv r, rfl, rfl, ?_, by decide⟩
  rcases List.mem_cons.1 hr with rfl | hr
  · exact ⟨_, rfl⟩
  rcases List.mem_cons.1 hr with rfl | hr
  · exact ⟨_, rfl⟩
  obtain rfl := List.mem_singleton.1 hr
  exact ⟨_, rfl⟩

theorem wit_HostTouchesOnlyTheReadBuffer_close : (waiting (.close 5#32) none).Inv ∧
    (∃ t, step (waiting (.close 5#32) none) = .next t) := ⟨waiting_close_inv none, _, rfl⟩

/-- Every answer of the console during a debug stop. -/
theorem wit_DebugStopProtocol (c : Option ConsoleInput) : (stopped c).debug = true ∧ (stopped c).status = .running ∧
    (stopped c).hold = some (.console .pop) ∧ (consoleAnswer (stopped c)).1 = c := ⟨rfl, rfl, rfl, rfl⟩

theorem wit_InstructionsWriteOnlyTheirCells : Memory.wf (base [] [(0, 1#32), (9999, 2#32)]).mem = true ∧
    storesTo .store [9999#32] 9998 = false ∧ storesTo (.insertString [0x41#8]) [0#32] 1 = false ∧
    storesTo .syscall [0#32, 0#32, 5#32, 2#32] 7 = false ∧ storesTo .syscall [1#32, 0#32, 5#32, 2#32] 5 = false := by
  decide

theorem wit_Frames : (base []).status = .running ∧ (∀ target, Instr.add ≠ .call target) ∧ Instr.add ≠ .ret ∧
    (advance .add (base [])).status.isFaulted = false :=
  ⟨rfl, fun _ h => (nomatch h), fun h => (nomatch h), rfl⟩

end Sys2Proof.Tests
end

section
/-! The family 10_state.md: the invariant, what a step leaves unchanged, frames over all instructions. -/

namespace Sys2Proof.Machine

/-! ## The label table names instructions of the program (10_state.md R31) -/

/-- Every index the table maps an id to is below `n`. -/
def LabelsBelow (labels : LabelTable) (n : Nat) : Prop :=
  ∀ id t, LabelTable.index? labels id = some t → t < n

theorem declareLabel_labelsBelow {labels : LabelTable} {k : Nat} (i : Instr) (h : LabelsBelow labels k) :
    LabelsBelow (declareLabel labels k i) (k + 1) := by
  intro id t ht
  unfold declareLabel at ht
  split at ht
  · rw [LabelTable.index?, LabelTable.declare, Sparse.get?_put] at ht
    split_ifs at ht
    · cases ht
      exact Nat.lt_succ_self k
    · exact Nat.lt_succ_of_lt (h id t ht)
  · exact Nat.lt_succ_of_lt (h id t ht)

theorem declareLabels_labelsBelow (prog : List Instr) : ∀ {labels : LabelTable} {k : Nat}, LabelsBelow labels k →
    LabelsBelow (declareLabels labels k prog) (k + prog.length) := by
  induction prog with
  | nil => exact id
  | cons i rest ih =>
    intro labels k h
    have hrest := ih (declareLabel_labelsBelow i h)
    rwa [Nat.add_assoc, Nat.add_comm 1] at hrest

theorem labelsOf_labelsBelow (prog : List Instr) : LabelsBelow (labelsOf prog) prog.length := by
  have hnil : LabelsBelow [] 0 := fun _ _ h => nomatch h
  simpa [labelsOf] using declareLabels_labelsBelow prog hnil

/-! ## The canonical form of memory is kept by what instructions and replies store (10_state.md R25) -/

theorem StoredBy.wf {i : Instr} {vs : List Word} {m' m : Memory} (h : StoredBy i vs m' m) (hm : Memory.wf m' = true) :
    Memory.wf m = true := by
  rcases h with rfl | ⟨a, cells, rfl, hlen, -⟩
  · exact hm
  · exact Memory.wf_writeSome hm fun _ => hlen

theorem replyMemory_wf {c : HostCall} {m : Memory} (data : List Byte) (tail : List (Option Byte))
    (hc : callInRange c = true) (hm : Memory.wf m = true) : Memory.wf (replyMemory c data tail m) = true := by
  cases c with
  | read fd buf count =>
    simp only [callInRange, inRange, Bool.and_eq_true, decide_eq_true_eq] at hc
    exact Memory.wf_writeSome hm fun _ => by simpa using hc.2
  | write | openFile | close => exact hm

/-! ## The invariant and the updates of the state -/

theorem lt_length_of_fetch {s : State} {i : Instr} (h : fetch s = some i) : s.pc < s.length :=
  (List.getElem?_eq_some_iff.1 h).1

namespace State.Inv

variable {s : State}

theorem label_lt (h : s.Inv) {target : Word} {t : Nat} (ht : LabelTable.index? s.labels target = some t) :
    t < s.length :=
  labelsOf_labelsBelow s.prog target t (h.labels_decoded ▸ ht)

theorem setEnv (h : s.Inv) (e : Env) : (s.setEnv e).Inv := { h with }

theorem setOut (h : s.Inv) (o : Ports) : (s.setOut o).Inv := { h with }

theorem setVs (h : s.Inv) {vs : List Word} (hfit : Fits s.params.vstackCap vs.length) : (s.setVs vs).Inv :=
  { h with vs_fits := hfit }

theorem setRs (h : s.Inv) {rs : List Nat} (hle : ∀ a ∈ rs, a ≤ s.length)
    (hfit : Fits s.params.rstackCap rs.length) : (s.setRs rs).Inv :=
  { h with rs_le := hle, rs_fits := hfit }

/-- Return addresses may be popped. -/
theorem suffixRs (h : s.Inv) {rs : List Nat} (hrs : rs <:+ s.rs) : (s.setRs rs).Inv :=
  h.setRs (fun a ha => h.rs_le a (hrs.subset ha)) (h.rs_fits.mono hrs.length_le)

/-- The return address of a `Call` may be pushed: the instruction after it is at most `N` (40_control.md R98). -/
theorem pushRs (h : s.Inv) (hpc : s.pc < s.length) (hroom : HasRoom s.params.rstackCap s.rs.length) :
    (s.setRs ((s.pc + 1) :: s.rs)).Inv :=
  h.setRs (List.forall_mem_cons.2 ⟨hpc, h.rs_le⟩) hroom.fits_succ

theorem setMem (h : s.Inv) {m : Memory} (hm : Memory.wf m = true) : (s.setMem m).Inv := { h with mem_wf := hm }

theorem endHold (h : s.Inv) : (s.setHold none).Inv where
  __ := h
  hold_host _ heq := nomatch heq
  hold_console _ heq := nomatch heq

theorem awaitHost (h : s.Inv) {c : HostCall} (hrun : s.status = .running) (hfetch : fetch s = some .syscall)
    (hc : callInRange c = true) : (s.setHold (some (.host c))).Inv where
  __ := h
  hold_host _ heq := by
    cases heq
    exact ⟨hrun, hfetch, hc⟩
  hold_console _ heq := nomatch heq

theorem awaitConsole (h : s.Inv) {i : Instr} (hrun : s.status = .running) (hfetch : fetch s = some i)
    (hdebug : s.debug = true) : (s.setHold (some (.console i))).Inv where
  __ := h
  hold_host _ heq := nomatch heq
  hold_console _ heq := by
    cases heq
    exact ⟨hrun, hfetch, hdebug⟩

/-- `pc` moves only while the engine runs and waits for nothing: a wait and an end state are tied to their index. -/
theorem setPc (h : s.Inv) (hrun : s.status = .running) (hhold : s.hold = none) {n : Nat} (hn : n ≤ s.length) :
    (s.setPc n).Inv where
  __ := h
  pc_le := hn
  hold_host _ heq := by simp [hhold] at heq
  hold_console _ heq := by simp [hhold] at heq
  completed_at_end heq := by simp [hrun] at heq
  halted_at_halt heq := by simp [hrun] at heq

/-- A run ends only where nothing is waited for, and at an index that fits the end. -/
theorem setStatus (h : s.Inv) (hhold : s.hold = none) {st : Status} (hcompleted : st = .completed → s.pc = s.length)
    (hhalted : st = .halted → fetch s = some .halt) (hfaulted : ∀ f p, st = .faulted f p → p < s.length) :
    (s.setStatus st).Inv where
  __ := h
  hold_host _ heq := by simp [hhold] at heq
  hold_console _ heq := by simp [hhold] at heq
  completed_at_end := hcompleted
  halted_at_halt := hhalted
  faulted_at := hfaulted

theorem complete (h : s.Inv) (hhold : s.hold = none) (hpc : s.pc = s.length) : (s.setStatus .completed).Inv :=
  h.setStatus hhold (fun _ => hpc) (fun heq => nomatch heq) fun _ _ heq => nomatch heq

theorem halt (h : s.Inv) (hhold : s.hold = none) (hfetch : fetch s = some .halt) : (s.setStatus .halted).Inv :=
  h.setStatus hhold (fun heq => nomatch heq) (fun _ => hfetch) fun _ _ heq => nomatch heq

theorem fault (h : s.Inv) (hhold : s.hold = none) (hpc : s.pc < s.length) (f : RunFault) :
    (s.setStatus (.faulted f s.pc)).Inv :=
  h.setStatus hhold (fun heq => nomatch heq) (fun heq => nomatch heq) fun _ _ heq => by
    cases heq
    exact hpc

theorem advance (h : s.Inv) {i : Instr} (hrun : s.status = .running) (hhold : s.hold = none)
    (hfetch : fetch s = some i) : (advance i s).Inv := by
  cases hdebug : s.debug with
  | false =>
    rw [advance_plain i hdebug]
    exact h.setPc hrun hhold (lt_length_of_fetch hfetch)
  | true =>
    rw [advance_debugging i hdebug]
    exact (h.setOut _).awaitConsole hrun hfetch hdebug

end State.Inv

/-! ## Every effect keeps the invariant -/

theorem HostEffect.inv {c : HostCall} {s t : State} (h : HostEffect c s t) (hs : s.Inv) (hrun : s.status = .running)
    (hfetch : fetch s = some .syscall) (hc : callInRange c = true) : t.Inv := by
  cases h with
  | wait e => exact (hs.setEnv e).awaitHost hrun hfetch hc
  | fail e msg => exact ((hs.setEnv e).endHold.setOut _).fault rfl (lt_length_of_fetch hfetch) _
  | ok e data tail fd =>
    exact (((hs.setEnv e).endHold.setOut _).setMem (replyMemory_wf data tail hc hs.mem_wf)).advance hrun rfl hfetch

theorem ConsoleEffect.inv {i : Instr} {s t : State} (h : ConsoleEffect i s t) (hs : s.Inv)
    (hhold : s.hold = some (.console i)) : t.Inv := by
  obtain ⟨hrun, hfetch, -⟩ := hs.hold_console i hhold
  cases h with
  | wait e => exact hs.setEnv e
  | prompt e retraced => exact (hs.setEnv e).setOut _
  | resume e c => exact ((hs.setEnv e).setOut _).endHold.setPc hrun rfl (lt_length_of_fetch hfetch)

theorem Effect.inv {i : Instr} {s t : State} (h : Effect i s t) (hs : s.Inv) (hrun : s.status = .running)
    (hhold : s.hold = none) (hfetch : fetch s = some i) : t.Inv := by
  have hpc : s.pc < s.length := lt_length_of_fetch hfetch
  cases h with
  | fault vs rs f _ hvs hrs =>
    have hpopped := hs.setVs (hs.vs_fits.mono hvs)
    rcases hrs with hrs | ⟨hroom, rfl⟩
    · exact (hpopped.suffixRs hrs).fault hhold hpc f
    · exact (hpopped.pushRs hpc hroom).fault hhold hpc f
  | sequential vs m emitted _ hfit _ _ hm _ =>
    exact (((hs.setVs (hfit hs.vs_fits)).setMem (hm.wf hs.mem_wf)).setOut _).advance hrun hhold hfetch
  | jump vs target t _ ht hvs _ _ =>
    exact (hs.setVs (hs.vs_fits.mono hvs)).setPc hrun hhold (hs.label_lt ht).le
  | call target t _ ht hroom =>
    exact (hs.pushRs hpc hroom).setPc hrun hhold (hs.label_lt ht).le
  | ret a rest _ hrs ha =>
    have hrest : rest <:+ s.rs := hrs ▸ List.suffix_cons a rest
    exact (hs.suffixRs hrest).setPc hrun hhold ha.le
  | halt hi => exact hs.halt hhold (hi ▸ hfetch)
  | host c vs t hi hvs _ hc _ ht =>
    exact ht.inv (hs.setVs (hs.vs_fits.mono hvs)) hrun (hi ▸ hfetch) hc

/-- Settles O13: a step is a wait, the end of the run or an instruction's effect (`step_cases`), and each keeps the
invariant. -/
theorem stepKeepsTheInvariant : Obligations.StepKeepsTheInvariant := by
  intro s t hs hstep
  obtain ⟨hrun, hcases⟩ := step_cases hstep
  rcases hcases with ⟨c, hhold, hhost⟩ | ⟨i, hhold, hconsole⟩ | ⟨hhold, hpc, rfl⟩ | ⟨hhold, -, i, hfetch, heffect⟩
  · obtain ⟨-, hfetch, hc⟩ := hs.hold_host c hhold
    exact hhost.inv hs hrun hfetch hc
  · exact hconsole.inv hs hhold
  · exact hs.complete hhold hpc
  · exact heffect.inv hs hrun hhold hfetch

/-- Settles O11: with the empty program and nothing running, every clause holds of the empty lists and of `pc = 0`. -/
theorem resetMeetsTheInvariant : Obligations.ResetMeetsTheInvariant where
  mem_wf := rfl
  labels_decoded := rfl
  prog_wf _ hi := nomatch hi
  pc_le := le_rfl
  rs_le _ ha := nomatch ha
  vs_fits := fits_none 0
  rs_fits := fits_none 0
  prog_fits := fits_none 0
  hold_host _ heq := nomatch heq
  hold_console _ heq := nomatch heq
  completed_at_end heq := nomatch heq
  halted_at_halt heq := nomatch heq
  faulted_at _ _ heq := nomatch heq

/-! ## The start and the end of a run (10_state.md R34, R29) -/

theorem boot_of_decodeProgram {p : Params} {debug : Bool} {bytes : List Byte} {prog : List Instr} {labels : LabelTable}
    (h : decodeProgram p.imemCap bytes = .program prog labels) :
    boot p debug bytes = .next (State.start p debug prog labels) := by
  simp only [boot, h]

/-- Settles O6: the boot of an accepted stream is `State.start` of what the decoder made of it. -/
theorem startOfARun : Obligations.StartOfARun := by
  intro p debug bytes prog labels h
  exact ⟨_, boot_of_decodeProgram h, fun a _ => Memory.read_nil a, rfl, rfl, rfl, rfl, rfl, rfl, rfl⟩

/-- Settles O10, by the three ways a run has ended. -/
theorem endedRunTakesNoStep : Obligations.EndedRunTakesNoStep := by
  intro s hended
  unfold step
  cases hst : s.status with
  | running => exact absurd hst hended
  | completed | halted | faulted f p => rfl

/-! ## What no step changes (10_state.md R28, R30, R31) -/

/-- `t` has the program, the label table, the debug flag and the parameters of `s`. -/
def SameSetup (s t : State) : Prop :=
  t.prog = s.prog ∧ t.labels = s.labels ∧ t.debug = s.debug ∧ t.params = s.params

theorem SameSetup.advance {i : Instr} {s t : State} (h : SameSetup s t) : SameSetup s (advance i t) := by
  simpa [SameSetup] using h

theorem HostEffect.sameSetup {c : HostCall} {s t : State} (h : HostEffect c s t) : SameSetup s t := by
  cases h with
  | wait | fail => exact ⟨rfl, rfl, rfl, rfl⟩
  | ok => exact SameSetup.advance ⟨rfl, rfl, rfl, rfl⟩

theorem ConsoleEffect.sameSetup {i : Instr} {s t : State} (h : ConsoleEffect i s t) : SameSetup s t := by
  cases h with
  | wait | prompt | resume => exact ⟨rfl, rfl, rfl, rfl⟩

theorem Effect.sameSetup {i : Instr} {s t : State} (h : Effect i s t) : SameSetup s t := by
  cases h with
  | fault | jump | call | ret | halt => exact ⟨rfl, rfl, rfl, rfl⟩
  | sequential => exact SameSetup.advance ⟨rfl, rfl, rfl, rfl⟩
  | host c vs t _ _ _ _ _ ht => exact ht.sameSetup

/-- Settles O16: no case of a step (`step_cases`) changes any of the four. -/
theorem stepKeepsProgramLabelsAndDebug : Obligations.StepKeepsProgramLabelsAndDebug := by
  intro s t hstep
  obtain ⟨-, ⟨c, -, hhost⟩ | ⟨i, -, hconsole⟩ | ⟨-, -, rfl⟩ | ⟨-, -, i, -, heffect⟩⟩ := step_cases hstep
  · exact hhost.sameSetup
  · exact hconsole.sameSetup
  · exact ⟨rfl, rfl, rfl, rfl⟩
  · exact heffect.sameSetup

/-! ## Frames of the two stacks (10_state.md R23, R24) -/

theorem HostEffect.stacks_eq {c : HostCall} {s t : State} (h : HostEffect c s t) : t.vs = s.vs ∧ t.rs = s.rs := by
  cases h with
  | wait | fail => exact ⟨rfl, rfl⟩
  | ok => exact ⟨advance_vs _ _, advance_rs _ _⟩

theorem Effect.rs_eq {i : Instr} {s t : State} (h : Effect i s t) (hcall : ∀ target, i ≠ .call target)
    (hret : i ≠ .ret) (hok : t.status.isFaulted = false) : t.rs = s.rs := by
  cases h with
  | fault => cases hok
  | sequential => exact advance_rs _ _
  | jump | halt => rfl
  | call target _ hi => exact absurd hi (hcall target)
  | ret _ _ hi => exact absurd hi hret
  | host c vs t _ _ _ _ _ ht => exact ht.stacks_eq.2

/-- Settles O54: of an instruction's effects, only those of `Call` and `Return` and a fault set the return stack. -/
theorem onlyCallAndReturnTouchReturnStack : Obligations.OnlyCallAndReturnTouchReturnStack :=
  fun i s _ hcall hret => (exec_effect i s).imp fun _ h => h.rs_eq hcall hret

/-- The entries below the top four stay: no instruction pops more than a `Syscall` Read does (44_syscall.md R172). -/
theorem Effect.drop_four_suffix {i : Instr} {s t : State} (h : Effect i s t) (hok : t.status.isFaulted = false) :
    s.vs.drop 4 <:+ t.vs := by
  cases h with
  | fault => cases hok
  | sequential vs m emitted _ _ hdrop => rwa [advance_vs]
  | jump _ _ _ _ _ _ hdrop => exact hdrop
  | call | ret | halt => exact List.drop_suffix 4 s.vs
  | host c vs t _ _ hdrop _ _ ht => rwa [ht.stacks_eq.1]

theorem Effect.label_vs {id : Word} {s t : State} (h : Effect (.label id) s t) (hok : t.status.isFaulted = false) :
    t.vs = s.vs := by
  cases h with
  | fault => cases hok
  | sequential vs m emitted _ _ _ hlabel => rw [advance_vs]; exact hlabel id rfl
  | jump _ _ _ hi => cases hi
  | call _ _ hi | ret _ _ hi | halt hi | host _ _ _ hi => cases hi

theorem eq_jumpUnconditional_of_neverSequential {i : Instr} (hi : neverSequential i = true) (hj : isJump i = true) :
    ∃ target, i = .jumpUnconditional target := by
  cases i with
  | jumpUnconditional target => exact ⟨target, rfl⟩
  | halt | ret | call => cases hj
  | _ => cases hi

/-- `Jump(Unconditional)`, `Call`, `Return` and `Halt`, the instructions that are never sequential, pop no value. -/
theorem Effect.neverSequential_vs {i : Instr} {s t : State} (h : Effect i s t) (hi : neverSequential i = true)
    (hok : t.status.isFaulted = false) : t.vs = s.vs := by
  cases h with
  | fault => cases hok
  | sequential _ _ _ hseq => simp [hi] at hseq
  | jump vs target t hjump _ _ _ hu =>
    obtain ⟨target, htarget⟩ := eq_jumpUnconditional_of_neverSequential hi hjump
    exact hu target htarget
  | call | ret | halt => rfl
  | host c vs t hsyscall =>
    subst hsyscall
    cases hi

/-- Settles O55: `Label` is sequential with its stack kept, the other four are never sequential. -/
theorem valueStackFrame : Obligations.ValueStackFrame := by
  refine fun i s _ => (exec_effect i s).imp fun t h hok => ⟨h.drop_four_suffix hok, ?_⟩
  rintro (⟨id, rfl⟩ | ⟨target, rfl⟩ | ⟨target, rfl⟩ | rfl | rfl)
  · exact h.label_vs hok
  all_goals exact h.neverSequential_vs rfl hok

/-! ## What leaves through the ports (10_state.md R35) -/

theorem advance_console (i : Instr) {s : State} (h : s.debug = false) :
    (advance i s).out.console = s.out.console := by
  rw [advance_plain i h, State.setPc_out]

theorem HostEffect.emitted_eq {c : HostCall} {s t : State} (h : HostEffect c s t) : t.out.emitted = s.out.emitted := by
  cases h with
  | wait | fail => rfl
  | ok => exact advance_emitted _ _

theorem HostEffect.hostLog_eq {c : HostCall} {s t : State} (h : HostEffect c s t) :
    t.out.hostLog = s.out.hostLog ∨ ∃ e, t.out.hostLog = s.out.hostLog ++ [e] := by
  cases h with
  | wait => exact .inl rfl
  | fail e msg => exact .inr ⟨_, rfl⟩
  | ok => exact .inr ⟨_, advance_hostLog _ _⟩

theorem HostEffect.console_eq {c : HostCall} {s t : State} (h : HostEffect c s t) (hdebug : s.debug = false) :
    t.out.console = s.out.console := by
  cases h with
  | wait | fail => rfl
  | ok => exact advance_console .syscall hdebug

theorem Effect.emitted_eq {i : Instr} {s t : State} (h : Effect i s t) :
    t.out.emitted = s.out.emitted ∨ i = .dump ∧ ∃ v, t.out.emitted = s.out.emitted ++ [v] := by
  cases h with
  | fault | jump | call | ret | halt => exact .inl rfl
  | sequential vs m emitted _ _ _ _ _ he => rwa [advance_emitted]
  | host c vs t _ _ _ _ _ ht => exact .inl ht.emitted_eq

theorem Effect.hostLog_eq {i : Instr} {s t : State} (h : Effect i s t) :
    t.out.hostLog = s.out.hostLog ∨ i = .syscall ∧ ∃ e, t.out.hostLog = s.out.hostLog ++ [e] := by
  cases h with
  | fault | jump | call | ret | halt => exact .inl rfl
  | sequential => exact .inl (advance_hostLog _ _)
  | host c vs t hi _ _ _ _ ht => exact ht.hostLog_eq.imp_right fun hlog => ⟨hi, hlog⟩

theorem Effect.console_eq {i : Instr} {s t : State} (h : Effect i s t) (hdebug : s.debug = false) :
    t.out.console = s.out.console := by
  cases h with
  | fault | jump | call | ret | halt => rfl
  | sequential => exact advance_console i hdebug
  | host c vs t _ _ _ _ _ ht => exact ht.console_eq hdebug

/-- Settles O56, transcript by transcript. -/
theorem portsAreReachedOnlyByDumpAndSyscall : Obligations.PortsAreReachedOnlyByDumpAndSyscall :=
  fun i s => (exec_effect i s).imp fun _ h => ⟨h.emitted_eq, h.hostLog_eq, h.console_eq⟩

/-! ## The status an instruction leaves (10_state.md R29, 40_control.md R90) -/

/-- The status is as before, or a fault was raised. -/
def RunsOnOrFaults (s t : State) : Prop := t.status = s.status ∨ ∃ f p, t.status = .faulted f p

theorem HostEffect.runsOnOrFaults {c : HostCall} {s t : State} (h : HostEffect c s t) : RunsOnOrFaults s t := by
  cases h with
  | wait => exact .inl rfl
  | fail => exact .inr ⟨_, _, rfl⟩
  | ok => exact .inl (advance_status _ _)

theorem Effect.status_cases {i : Instr} {s t : State} (h : Effect i s t) :
    i = .halt ∧ t.status = .halted ∨ i ≠ .halt ∧ RunsOnOrFaults s t := by
  cases h with
  | fault _ _ _ hi => exact .inr ⟨hi, .inr ⟨_, _, rfl⟩⟩
  | sequential _ _ _ hi => exact .inr ⟨(by rintro rfl; cases hi), .inl (advance_status _ _)⟩
  | jump _ _ _ hi => exact .inr ⟨(by rintro rfl; cases hi), .inl rfl⟩
  | call _ _ hi | ret _ _ hi => exact .inr ⟨(by rintro rfl; cases hi), .inl rfl⟩
  | halt hi => exact .inl ⟨hi, rfl⟩
  | host c vs t hi _ _ _ _ ht => exact .inr ⟨(by rintro rfl; cases hi), ht.runsOnOrFaults⟩

/-- Settles O57: a running engine's status after an instruction is `Halted` by `Halt`, and otherwise `Running` or
`Faulted`. -/
theorem onlyHaltHaltsTheRun : Obligations.OnlyHaltHaltsTheRun := by
  refine fun i s hrun => (exec_effect i s).imp fun t h => ?_
  obtain ⟨hi, hst⟩ | ⟨hi, hst | ⟨f, p, hst⟩⟩ := h.status_cases
  · simp [hi, hst]
  · simp [hi, hst, hrun]
  · simp [hi, hst]

end Sys2Proof.Machine
end

section
/-! The family 20_memory.md: the cells an instruction stores to, and the frame around them. -/

namespace Sys2Proof.Machine

/-- The cells of a Read are those of its buffer (44_syscall.md R172). -/
theorem storesTo_syscall_read {fd buf count : Word} {rest : List Word} {a : Nat} :
    storesTo .syscall (0#32 :: fd :: buf :: count :: rest) a = false ↔
      a < buf.toNat ∨ buf.toNat + count.toNat ≤ a := by
  simp [storesTo]
  omega

/-- A sequential instruction's stores leave every cell but those of `storesTo` (20_memory.md R49). -/
theorem StoredBy.read_other {i : Instr} {vs : List Word} {m' m : Memory} {a : Nat} (h : StoredBy i vs m' m)
    (hm : Memory.wf m' = true) (ha : storesTo i vs a = false) : Memory.read m a = Memory.read m' a := by
  rcases h with rfl | ⟨lo, cells, rfl, hlen, hstores⟩
  · rfl
  · refine Memory.read_writeSome_other hm hlen ?_
    by_contra! hin
    simp [hstores a hin.1 hin.2] at ha

/-- The host's reply leaves every cell outside a Read's buffer (44_syscall.md R177). -/
theorem replyMemory_read_other {c : HostCall} {m : Memory} {a : Nat} (data : List Byte) (tail : List (Option Byte))
    (hc : callInRange c = true) (hm : Memory.wf m = true)
    (ha : ∀ fd buf count, c = .read fd buf count → a < buf.toNat ∨ buf.toNat + count.toNat ≤ a) :
    Memory.read (replyMemory c data tail m) a = Memory.read m a := by
  cases c with
  | read fd buf count =>
    simp only [callInRange, inRange, Bool.and_eq_true, decide_eq_true_eq] at hc
    exact Memory.read_writeSome_other hm (by simpa using hc.2) (by simpa using ha fd buf count rfl)
  | write | openFile | close => rfl

theorem HostEffect.read_other {c : HostCall} {s t : State} {a : Nat} (h : HostEffect c s t)
    (hc : callInRange c = true) (hm : Memory.wf s.mem = true)
    (ha : ∀ fd buf count, c = .read fd buf count → a < buf.toNat ∨ buf.toNat + count.toNat ≤ a) :
    Memory.read t.mem a = Memory.read s.mem a := by
  cases h with
  | wait | fail => rfl
  | ok e data tail fd =>
    rw [advance_mem]
    exact replyMemory_read_other data tail hc hm ha

theorem Effect.read_other {i : Instr} {s t : State} {a : Nat} (h : Effect i s t) (hm : Memory.wf s.mem = true)
    (ha : storesTo i s.vs a = false) : Memory.read t.mem a = Memory.read s.mem a := by
  cases h with
  | fault | jump | call | ret | halt => rfl
  | sequential vs m emitted _ _ _ _ hstored =>
    rw [advance_mem]
    exact hstored.read_other hm ha
  | host c vs t hi _ _ hc hread ht =>
    subst hi
    refine ht.read_other hc hm fun fd buf count hcall => ?_
    obtain ⟨rest, hvs⟩ := hread fd buf count hcall
    rw [hvs] at ha
    exact storesTo_syscall_read.1 ha

/-- Settles O53: of an instruction's effects, only a sequential end and a host's reply set cells, each within
`storesTo`. -/
theorem instructionsWriteOnlyTheirCells : Obligations.InstructionsWriteOnlyTheirCells :=
  fun i s hm => (exec_effect i s).imp fun _ h _ ha => h.read_other hm ha

end Sys2Proof.Machine
end

section
/-! The family 30_encoding.md: the three formats, the decode loop at an instruction boundary, the label table. -/

namespace Sys2Proof

open Sys2Proof.Machine

/-! ## The opcode map (30_encoding.md R63 to R65, R67, R77) -/

/-- A byte is an opcode of at most one format, and the ten ranges of R77 are the bytes of none: the map of R67, byte by
byte. -/
theorem opcode_map : ∀ op : Byte,
    ((decodeFI op).isSome = true → decodeF0 op = none) ∧
    (illegalOpcode op = true ↔ decodeF0 op = none ∧ (decodeFI op).isNone = true ∧ op ≠ opcodeFS) := by
  decide

theorem decodeF0_eq_none_of_decodeFI {op : Byte} {mk : Word → Instr} (h : decodeFI op = some mk) :
    decodeF0 op = none :=
  (opcode_map op).1 (h ▸ rfl)

theorem illegalOpcode_iff {op : Byte} :
    illegalOpcode op = true ↔ decodeF0 op = none ∧ decodeFI op = none ∧ op ≠ opcodeFS := by
  simpa using (opcode_map op).2

/-- Every instruction is encoded in one of the three formats (R63 to R65, R75). -/
theorem encode_formats (i : Instr) :
    (∃ op, encode i = [op]) ∨
    (∃ op mk v, encode i = encodeFI op v ∧ decodeFI op = some mk) ∨
    (∃ text, i = .insertString text) := by
  cases i with
  | insertString text => exact .inr (.inr ⟨text, rfl⟩)
  | push | call | label | jumpUnconditional | jumpEqual | jumpGreater | jumpLesser | jumpNotEqual =>
    exact .inr (.inl ⟨_, _, _, rfl, rfl⟩)
  | pop | dump | halt | dup | swap | rot | ret | add | sub | mul | div | cmp | syscall | load | store =>
    exact .inl ⟨_, rfl⟩

/-! ## One instruction of each format (30_encoding.md R68) -/

theorem decodeOne_f0 {op : Byte} {i : Instr} {k : Nat} {rest : List Byte} (h : decodeF0 op = some i) :
    decodeOne k op rest = .instr i rest := by
  simp only [decodeOne, h]

theorem decodeOne_fi {op : Byte} {mk : Word → Instr} {b0 b1 b2 b3 : Byte} {k : Nat} {rest : List Byte}
    (h : decodeFI op = some mk) :
    decodeOne k op (b0 :: b1 :: b2 :: b3 :: rest) = .instr (mk (u32le b0 b1 b2 b3)) rest := by
  simp only [decodeOne, decodeF0_eq_none_of_decodeFI h, h]

/-- Fewer than four operand bytes are a truncated FI instruction (R71). -/
theorem decodeOne_fi_short {op : Byte} {mk : Word → Instr} {k : Nat} {operand : List Byte}
    (h : decodeFI op = some mk) (hlen : operand.length < 4) : decodeOne k op operand = .truncated := by
  simp only [decodeOne, decodeF0_eq_none_of_decodeFI h, h]
  split
  · simp only [List.length_cons] at hlen
    omega
  · rfl

theorem decodeOne_fs_text (text : Text) (k : Nat) (rest : List Byte) (h : text.all stringByteOk = true) :
    decodeOne k 0x8C#8 (text ++ 0x00#8 :: rest) = .instr (.insertString text) rest := by
  obtain ⟨_, _, hencode, hdecode⟩ := Laws.DecodeEncode.insertString text h k rest
  cases hencode
  simpa using hdecode

theorem stringByteOk_iff {b : Byte} : stringByteOk b = true ↔ b ≠ 0#8 ∧ ¬ 128 ≤ b.toNat := by
  have hzero : b = 0#8 ↔ b.toNat = 0 := by simp [← BitVec.toNat_inj]
  simp only [stringByteOk, Bool.and_eq_true, decide_eq_true_eq, ne_eq, hzero]
  omega

/-- A byte of 0x80 or above ends the scan at its own offset (R65, R70). -/
theorem scanString_nonAscii {b : Byte} (hb : 128 ≤ b.toNat) (tail : List Byte) : ∀ (text : Text) (k : Nat),
    text.all stringByteOk = true → scanString k (text ++ b :: tail) = .nonAscii (k + text.length)
  | [], k, _ => by
    have hzero : b ≠ 0#8 := by
      rintro rfl
      simp at hb
    simp [scanString, hzero, hb]
  | c :: text, k, h => by
    simp only [List.all_cons, Bool.and_eq_true, stringByteOk_iff] at h
    obtain ⟨⟨hzero, hascii⟩, htext⟩ := h
    simp [scanString, hzero, hascii, scanString_nonAscii hb tail text (k + 1) htext]
    omega

/-- Without a zero byte the scan finds no end (R71). -/
theorem scanString_unterminated : ∀ (text : Text) (k : Nat), text.all stringByteOk = true →
    scanString k text = .unterminated
  | [], _, _ => rfl
  | c :: text, k, h => by
    simp only [List.all_cons, Bool.and_eq_true, stringByteOk_iff] at h
    obtain ⟨⟨hzero, hascii⟩, htext⟩ := h
    simp [scanString, hzero, hascii, scanString_unterminated text (k + 1) htext]

theorem decodeOne_fs_nonAscii {text : Text} {b : Byte} {k : Nat} {tail : List Byte}
    (h : text.all stringByteOk = true) (hb : 128 ≤ b.toNat) :
    decodeOne k 0x8C#8 (text ++ b :: tail) = .refused (.nonAsciiString (k + 1 + text.length)) := by
  simp [decodeOne, decodeF0, decodeFI, opcodeFS, scanString_nonAscii hb tail text (k + 1) h]

theorem decodeOne_fs_unterminated {text : Text} {k : Nat} (h : text.all stringByteOk = true) :
    decodeOne k 0x8C#8 text = .truncated := by
  simp [decodeOne, decodeF0, decodeFI, opcodeFS, scanString_unterminated text (k + 1) h]

theorem decodeOne_illegal {op : Byte} (k : Nat) (rest : List Byte) (h : illegalOpcode op = true) :
    decodeOne k op rest = .refused (.illegalOpcode k op) := by
  obtain ⟨hf0, hfi, hfs⟩ := illegalOpcode_iff.1 h
  simp only [decodeOne, hf0, hfi, hfs, if_false]

/-- The decoder refuses an instruction only for its opcode or for a byte of its string (R70). -/
theorem decodeOne_refused_cases {k : Nat} {op : Byte} {rest : List Byte} {r : DecodeRefusal}
    (h : decodeOne k op rest = .refused r) :
    (illegalOpcode op = true ∧ r = .illegalOpcode k op) ∨ ∃ j, r = .nonAsciiString j := by
  unfold decodeOne at h
  split at h
  · cases h
  next hf0 =>
    split at h
    · split at h <;> cases h
    next hfi =>
      split_ifs at h with hfs
      · split at h <;> cases h
        exact .inr ⟨_, rfl⟩
      · cases h
        exact .inl ⟨illegalOpcode_iff.2 ⟨hf0, hfi, hfs⟩, rfl⟩

/-- Every instruction's encoding decodes back to it, whatever follows (R75, R76): the lemmas of `Laws.DecodeEncode`,
constructor by constructor. -/
theorem decodeEncode : ∀ i : Instr, Laws.DecodeEncode.Statement i
  | .push v => Laws.DecodeEncode.push v
  | .pop => Laws.DecodeEncode.pop
  | .dump => Laws.DecodeEncode.dump
  | .halt => Laws.DecodeEncode.halt
  | .dup => Laws.DecodeEncode.dup
  | .swap => Laws.DecodeEncode.swap
  | .rot => Laws.DecodeEncode.rot
  | .ret => Laws.DecodeEncode.ret
  | .add => Laws.DecodeEncode.add
  | .sub => Laws.DecodeEncode.sub
  | .mul => Laws.DecodeEncode.mul
  | .div => Laws.DecodeEncode.div
  | .call target => Laws.DecodeEncode.call target
  | .cmp => Laws.DecodeEncode.cmp
  | .label id => Laws.DecodeEncode.label id
  | .syscall => Laws.DecodeEncode.syscall
  | .jumpUnconditional target => Laws.DecodeEncode.jumpUnconditional target
  | .jumpEqual target => Laws.DecodeEncode.jumpEqual target
  | .jumpGreater target => Laws.DecodeEncode.jumpGreater target
  | .jumpLesser target => Laws.DecodeEncode.jumpLesser target
  | .jumpNotEqual target => Laws.DecodeEncode.jumpNotEqual target
  | .load => Laws.DecodeEncode.load
  | .store => Laws.DecodeEncode.store
  | .insertString text => Laws.DecodeEncode.insertString text

/-! ## The decode loop at an instruction boundary (30_encoding.md R68) -/

/-- The decode loop on the bytes from offset `k` on, with as much fuel as there are bytes. -/
def decodeRest (cap : Option Nat) (k : Nat) (bytes : List Byte) (prog : List Instr) (labels : LabelTable) :
    DecodeResult :=
  decodeFrom cap bytes.length k bytes prog labels

theorem decodeProgram_eq_decodeRest (cap : Option Nat) (bytes : List Byte) :
    decodeProgram cap bytes = decodeRest cap 0 bytes [] [] := rfl

section
variable {cap : Option Nat} {k : Nat} {op : Byte} {rest : List Byte} {prog : List Instr} {labels : LabelTable}

theorem decodeRest_nil : decodeRest cap k [] prog labels = .program prog labels := rfl

theorem decodeRest_truncated (h : decodeOne k op rest = .truncated) :
    decodeRest cap k (op :: rest) prog labels = .program prog labels := by
  simp only [decodeRest, List.length_cons, decodeFrom, h]

theorem decodeRest_refused {r : DecodeRefusal} (h : decodeOne k op rest = .refused r) :
    decodeRest cap k (op :: rest) prog labels = .refused r := by
  simp only [decodeRest, List.length_cons, decodeFrom, h]

theorem decodeRest_instr {i : Instr} {rest' : List Byte} (h : decodeOne k op rest = .instr i rest') :
    decodeRest cap k (op :: rest) prog labels =
      if cap = some prog.length then .refused (.programTooLarge k)
      else decodeRest cap (k + (rest.length + 1 - rest'.length)) rest' (prog ++ [i])
        (declareLabel labels prog.length i) := by
  simp only [decodeRest, List.length_cons, decodeFrom, h]
  rw [decodeFrom_fuel cap rest.length _ rest' _ _ (decodeOne_rest_length h)]

/-- At a boundary where a well-formed instruction stands, the loop goes on after its encoding, or finds the program too
large. -/
theorem decodeRest_encode {i : Instr} (hi : i.wf = true) (tail : List Byte) :
    decodeRest cap k (encode i ++ tail) prog labels =
      if cap = some prog.length then .refused (.programTooLarge k)
      else decodeRest cap (k + (encode i).length) tail (prog ++ [i]) (declareLabel labels prog.length i) := by
  obtain ⟨op, operand, hencode, hdecode⟩ := decodeEncode i hi k tail
  have hlen : (operand ++ tail).length + 1 - tail.length = (encode i).length := by
    simp [hencode]
    omega
  rw [hencode, List.cons_append, decodeRest_instr hdecode, hlen, hencode]

/-- A proper beginning of an instruction's encoding is dropped at the end of the stream (R71). -/
theorem decodeRest_take_encode {i : Instr} {n : Nat} (hi : i.wf = true) (hn : n < (encode i).length) :
    decodeRest cap k ((encode i).take n) prog labels = .program prog labels := by
  cases n with
  | zero => exact decodeRest_nil
  | succ n =>
    obtain ⟨op, hencode⟩ | ⟨op, mk, v, hencode, hop⟩ | ⟨text, rfl⟩ := encode_formats i
    · simp [hencode] at hn
    · rw [hencode] at hn ⊢
      refine decodeRest_truncated (decodeOne_fi_short hop ?_)
      simp [encodeFI] at hn ⊢
      omega
    · have hle : n ≤ text.length := by simpa [encode] using hn
      rw [encode, List.take_succ_cons, List.take_append_of_le_length hle]
      have htext : ∀ b ∈ text, stringByteOk b = true := List.all_eq_true.1 hi
      exact decodeRest_truncated
        (decodeOne_fs_unterminated (List.all_eq_true.2 fun b hb => htext b (List.mem_of_mem_take hb)))

end

theorem ne_some_of_hasRoom {cap : Option Nat} {n : Nat} (h : HasRoom cap n) : cap ≠ some n := by
  rintro rfl
  simp at h

/-- The loop over a program's encoding takes in the program and its labels, and stands at the boundary after it. -/
theorem decodeRest_encodeProgram {cap : Option Nat} (tail : List Byte) (new : List Instr) :
    ∀ {k : Nat} {prog : List Instr} {labels : LabelTable}, (∀ i ∈ new, i.wf = true) →
    Fits cap (prog.length + new.length) →
    decodeRest cap k (encodeProgram new ++ tail) prog labels =
      decodeRest cap (k + (encodeProgram new).length) tail (prog ++ new) (declareLabels labels prog.length new) := by
  induction new with
  | nil => simp [encodeProgram, declareLabels]
  | cons i new ih =>
    intro k prog labels hwf hfits
    obtain ⟨hi, hnew⟩ := List.forall_mem_cons.1 hwf
    have hroom : cap ≠ some prog.length := ne_some_of_hasRoom (Fits.hasRoom hfits (by simp))
    have hstep := ih (k := k + (encode i).length) (prog := prog ++ [i])
      (labels := declareLabel labels prog.length i) hnew (by simpa [Nat.add_assoc, Nat.add_comm 1] using hfits)
    simp only [encodeProgram, List.flatMap_cons, List.append_assoc] at hstep ⊢
    rw [decodeRest_encode hi, if_neg hroom, hstep]
    simp [declareLabels, Nat.add_assoc]

theorem decodeProgram_encodeProgram_append {cap : Option Nat} {prog : List Instr} (hwf : ∀ i ∈ prog, i.wf = true)
    (hfits : Fits cap prog.length) (tail : List Byte) :
    decodeProgram cap (encodeProgram prog ++ tail) =
      decodeRest cap (encodeProgram prog).length tail prog (labelsOf prog) := by
  rw [decodeProgram_eq_decodeRest, decodeRest_encodeProgram tail prog hwf (by simpa using hfits)]
  simp [labelsOf]

/-- The unbounded loop never finds the program too large (R11, R70). -/
theorem decodeFrom_none_ne_programTooLarge (j : Nat) : ∀ (fuel k : Nat) (bytes : List Byte) (prog : List Instr)
    (labels : LabelTable), decodeFrom none fuel k bytes prog labels ≠ .refused (.programTooLarge j)
  | 0, _, _, _, _ => nofun
  | _ + 1, _, [], _, _ => nofun
  | fuel + 1, k, op :: rest, prog, labels => by
    rw [decodeFrom]
    split
    · nofun
    next r hr =>
      rintro ⟨rfl⟩
      obtain ⟨-, h⟩ | ⟨_, h⟩ := decodeOne_refused_cases hr <;> cases h
    · exact decodeFrom_none_ne_programTooLarge j fuel _ _ _ _

/-! ## The label table (30_encoding.md R69) -/

theorem declareLabels_append (i : Instr) (prog : List Instr) : ∀ (labels : LabelTable) (k : Nat),
    declareLabels labels k (prog ++ [i]) = declareLabel (declareLabels labels k prog) (k + prog.length) i := by
  induction prog with
  | nil => exact fun _ _ => rfl
  | cons j prog ih =>
    intro labels k
    simp [declareLabels, ih, Nat.add_assoc, Nat.add_comm 1]

theorem labelsOf_append (prog : List Instr) (i : Instr) :
    labelsOf (prog ++ [i]) = declareLabel (labelsOf prog) prog.length i := by
  simp [labelsOf, declareLabels_append]

theorem index?_declareLabel (labels : LabelTable) (n : Nat) (i : Instr) (id : Word) :
    LabelTable.index? (declareLabel labels n i) id =
      if i = .label id then some n else LabelTable.index? labels id := by
  unfold declareLabel
  split
  · next id' =>
    rw [LabelTable.index?, LabelTable.declare, Sparse.get?_put]
    simp [BitVec.toNat_inj, eq_comm, LabelTable.index?]
  · next h => rw [if_neg (h id)]

/-- Instruction `k` is the last `Label` of `id` in `prog` (R69: the last declaration wins). -/
def LastLabel (prog : List Instr) (id : Word) (k : Nat) : Prop :=
  prog[k]? = some (.label id) ∧ ∀ j, k < j → prog[j]? ≠ some (.label id)

theorem lastLabel_append_label {prog : List Instr} {id : Word} {k : Nat} :
    LastLabel (prog ++ [.label id]) id k ↔ prog.length = k := by
  constructor
  · rintro ⟨hk, hlast⟩
    obtain ⟨hlt, -⟩ := List.getElem?_eq_some_iff.1 hk
    have hge : ¬ k < prog.length := fun h => hlast _ h (by simp)
    simp at hlt
    omega
  · rintro rfl
    refine ⟨by simp, fun j hj => ?_⟩
    rw [List.getElem?_eq_none (by simpa using hj)]
    nofun

theorem getElem?_append_eq_label_iff {prog : List Instr} {i : Instr} {id : Word} (hi : i ≠ .label id) (k : Nat) :
    (prog ++ [i])[k]? = some (.label id) ↔ prog[k]? = some (.label id) := by
  rw [List.getElem?_append]
  split_ifs with h
  · rfl
  · simp [List.getElem?_singleton, hi, h]

theorem lastLabel_append_of_ne {prog : List Instr} {i : Instr} {id : Word} {k : Nat} (hi : i ≠ .label id) :
    LastLabel (prog ++ [i]) id k ↔ LastLabel prog id k := by
  simp only [LastLabel, ne_eq, getElem?_append_eq_label_iff hi]

/-- The label table maps an id to its last declaration. -/
theorem index?_labelsOf_iff (prog : List Instr) (id : Word) (k : Nat) :
    LabelTable.index? (labelsOf prog) id = some k ↔ LastLabel prog id k := by
  induction prog using List.reverseRecOn with
  | nil => simp [LastLabel, labelsOf, declareLabels, LabelTable.index?, Sparse.get?]
  | append_singleton prog i ih =>
    rw [labelsOf_append, index?_declareLabel]
    by_cases hi : i = .label id
    · subst hi
      simp [lastLabel_append_label]
    · rw [if_neg hi, ih, lastLabel_append_of_ne hi]

/-! ## The family's statements -/

/-- Settles O2: the loop stands at the end of the stream with the program taken in, and the label table is extended
instruction by instruction, the last declaration of an id winning. -/
theorem decodingAnEncodedProgramGivesItBack : Obligations.DecodingAnEncodedProgramGivesItBack := by
  refine fun prog hwf => ⟨?_, index?_labelsOf_iff prog⟩
  have h := decodeProgram_encodeProgram_append hwf (fits_none _) []
  rwa [List.append_nil, decodeRest_nil] at h

/-- Settles O3: after the encoded program the loop stands at the partial instruction, or at the last opcode. -/
theorem truncatedLastInstructionIsDropped : Obligations.TruncatedLastInstructionIsDropped := by
  refine fun prog hwf => ⟨fun i n hi hn => ?_, fun op i hop => ?_⟩
  · rw [decodeProgram_encodeProgram_append hwf (fits_none _), decodeRest_take_encode hi hn]
  · rw [decodeProgram_encodeProgram_append hwf (fits_none _), decodeRest_instr (decodeOne_f0 hop), if_neg nofun,
      decodeRest_nil, labelsOf_append]

/-- Settles O4, by the opcode map and what the decoder does with an operand of each format. -/
theorem nonOpcodeBytesRefuseTheProgram : Obligations.NonOpcodeBytesRefuseTheProgram := by
  refine ⟨by decide, fun op k rest => ⟨fun h => ?_, decodeOne_illegal k rest⟩, fun prog op tail hwf hop => ?_,
    fun _ _ _ _ _ _ _ _ => decodeOne_fi, decodeOne_fs_text⟩
  · obtain ⟨hop, -⟩ | ⟨_, hr⟩ := decodeOne_refused_cases h
    · exact hop
    · cases hr
  · rw [decodeProgram_encodeProgram_append hwf (fits_none _), decodeRest_refused (decodeOne_illegal _ _ hop)]

theorem boot_eq_refused_iff {p : Params} {debug : Bool} {bytes : List Byte} {r : DecodeRefusal} :
    boot p debug bytes = .refused (.decode r) ↔ decodeProgram p.imemCap bytes = .refused r := by
  unfold boot
  cases decodeProgram p.imemCap bytes <;> simp

/-- Settles O5: after an encoded program that fits, the loop refuses at the boundary it stands at; without a capacity it
never counts the instructions. -/
theorem refusedStreamsNameTheirOffset : Obligations.RefusedStreamsNameTheirOffset := by
  refine ⟨fun p debug prog tail hwf hfits => ⟨fun op hop => ?_, fun text b htext hb => ?_, fun i hi hcap => ?_⟩,
    fun p debug bytes k hcap h => ?_⟩
  · rw [boot_eq_refused_iff, decodeProgram_encodeProgram_append hwf hfits,
      decodeRest_refused (decodeOne_illegal _ _ hop)]
  · rw [boot_eq_refused_iff, decodeProgram_encodeProgram_append hwf hfits,
      decodeRest_refused (decodeOne_fs_nonAscii htext hb)]
  · rw [boot_eq_refused_iff, decodeProgram_encodeProgram_append hwf hfits, decodeRest_encode hi, if_pos hcap]
  · rw [boot_eq_refused_iff, hcap] at h
    exact decodeFrom_none_ne_programTooLarge k _ _ _ _ _ h

/-- Settles O1, format by format: each word's opcode is of its format, and its operand is read little-endian. -/
theorem wordsWrittenFromTheTableDecode : Obligations.WordsWrittenFromTheTableDecode :=
  ⟨decodeOne_fi rfl, decodeOne_f0 rfl, decodeOne_f0 rfl, decodeOne_fi rfl, decodeOne_f0 rfl,
    decodeOne_fs_text [0x48#8, 0x69#8] 0 [] rfl⟩

/-- Settles O7: the empty stream boots to a running engine at `pc = N = 0`, whose step completes the run. -/
theorem emptyProgramCompletesAtOnce : Obligations.EmptyProgramCompletesAtOnce := by
  intro p debug
  have hdecode : decodeProgram p.imemCap [] = .program [] [] := decodeRest_nil
  exact ⟨hdecode, _, boot_of_decodeProgram hdecode, _, rfl, rfl, rfl⟩

end Sys2Proof
end

section
/-! The family 40_control.md: a step at an instruction boundary, progress, and control transfer. -/

namespace Sys2Proof.Machine

/-! ## What an operation raises (00_scope.md R14, R15; 40_control.md R100) -/

/-- A fault raised after pops and pushes: `pc` and the ports are still those of the instruction's start. -/
theorem faults_raise {f : RunFault} {s s' : State} (hpc : s'.pc = s.pc) (hout : s'.out = s.out) :
    Faults f s (raise f s') :=
  raise_answers ⟨by rw [State.setStatus_status, hpc], hout⟩

theorem popV_nil_faults {s : State} (k : Word → State → Out) (h : s.vs = []) :
    Faults .stackUnderflow s (popV s k) := by
  rw [popV_nil k h]
  exact faults_raise rfl rfl

theorem popR_nil_faults {s : State} (k : Nat → State → Out) (h : s.rs = []) :
    Faults .stackUnderflow s (popR s k) := by
  rw [popR_nil k h]
  exact faults_raise rfl rfl

theorem pushR_full {n : Nat} {s : State} (k : State → Out) (h : ¬ HasRoom s.params.rstackCap s.rs.length) :
    pushR n s k = raise .stackOverflow s :=
  if_pos (Bool.of_not_eq_false h)

theorem resolve_undeclared {target : Word} {s : State} (k : Nat → State → Out)
    (h : LabelTable.index? s.labels target = none) : resolve target s k = raise (.unknownLabel target) s := by
  simp only [resolve, h]

/-- A target resolved after pops and pushes: the fault is still the one of the instruction started at `s`. -/
theorem resolve_undeclared_faults {target : Word} {s s' : State} (k : Nat → State → Out)
    (h : LabelTable.index? s'.labels target = none) (hpc : s'.pc = s.pc) (hout : s'.out = s.out) :
    Faults (.unknownLabel target) s (resolve target s' k) := by
  rw [resolve_undeclared k h]
  exact faults_raise hpc hout

/-! ## A step of the run loop (40_control.md R90) -/

theorem step_boundary {s : State} (hrun : s.status = .running) (hhold : s.hold = none) : step s = dispatch s := by
  simp only [step, hrun, hhold]

theorem step_waiting {s : State} {h : Hold} (hrun : s.status = .running) (hhold : s.hold = some h) :
    step s = resume h s := by
  simp only [step, hrun, hhold]

theorem dispatch_of_fetch {s : State} {i : Instr} (h : fetch s = some i) : dispatch s = exec i s := by
  simp only [dispatch, if_neg (lt_length_of_fetch h).ne, h]

theorem dispatch_at_end {s : State} (h : s.pc = s.length) : dispatch s = .next (s.setStatus .completed) :=
  if_pos h

/-- Settles O9: the two cases of `dispatch` below and at `N`. -/
theorem stepRunsTheInstructionAtPc : Obligations.StepRunsTheInstructionAtPc := by
  intro s hrun hhold
  rw [step_boundary hrun hhold]
  exact ⟨fun i _ hfetch => dispatch_of_fetch hfetch, dispatch_at_end⟩

/-! ## Progress (40_control.md R90, 60_exceptions.md R211, R218) -/

theorem Answers.exists_next {o : Out} {P : State → Prop} (h : Answers o P) : ∃ t, o = .next t := by
  obtain ⟨t, ht, -⟩ := h
  exact ⟨t, ht⟩

/-- Settles O15: every meaning answers one of its effects. -/
theorem everyMeaningAnswersANextState : Obligations.EveryMeaningAnswersANextState :=
  fun i s => (exec_effect i s).exists_next

theorem resume_exists_next (h : Hold) (s : State) : ∃ t, resume h s = .next t := by
  cases h with
  | host c => exact (callHost_effect c s).exists_next
  | console i => exact (consoleStep_effect i s).exists_next

/-- The only stop at an instruction boundary is `pcOutOfRange`, above `N`. -/
theorem dispatch_exists_next {s : State} (hpc : s.pc ≤ s.length) : ∃ t, dispatch s = .next t := by
  obtain hlt | hend := hpc.lt_or_eq
  · have hfetch : fetch s = some s.prog[s.pc] := List.getElem?_eq_getElem hlt
    rw [dispatch_of_fetch hfetch]
    exact everyMeaningAnswersANextState _ s
  · exact ⟨_, dispatch_at_end hend⟩

/-- Settles O14: a wait asks again, and at an instruction boundary the invariant keeps `pc` in `[0, N]`. -/
theorem runningEngineAlwaysSteps : Obligations.RunningEngineAlwaysSteps := by
  intro s hs hrun
  cases hhold : s.hold with
  | some h =>
    rw [step_waiting hrun hhold]
    exact resume_exists_next h s
  | none =>
    rw [step_boundary hrun hhold]
    exact dispatch_exists_next hs.pc_le

/-! ## Sequential ends and control transfer (40_control.md R90 to R100) -/

/-- Settles O21: `sequential` answers `advance`, which without `debug` only moves `pc`. -/
theorem sequentialEndAdvancesPc : Obligations.SequentialEndAdvancesPc :=
  fun i _ hdebug => ⟨rfl, advance_plain i hdebug⟩

/-- Settles O37: the meaning of `Label` is its sequential end. -/
theorem labelHasNoEffect : Obligations.LabelHasNoEffect :=
  fun _ _ => ⟨rfl, rfl⟩

/-- Settles O38, by whether the target is declared. -/
theorem jumpUnconditionalGoesToItsLabel : Obligations.JumpUnconditionalGoesToItsLabel := by
  intro target s
  rw [exec, execJumpUnconditional]
  exact ⟨rfl, fun t ht => resolve_declared _ ht, fun hnone => resolve_undeclared_faults _ hnone rfl rfl⟩

theorem condJump_taken {i : Instr} {taken : Word → Bool} {target c : Word} {rest : List Word} {s : State}
    (hvs : s.vs = c :: rest) (hc : taken c = true) :
    condJump i taken target s = resolve target (s.setVs rest) transfer := by
  rw [condJump, popV_cons _ hvs, if_pos hc]

theorem condJump_not_taken {i : Instr} {taken : Word → Bool} {target c : Word} {rest : List Word} {s : State}
    (hvs : s.vs = c :: rest) (hc : ¬ taken c = true) :
    condJump i taken target s = sequential i (s.setVs rest) := by
  rw [condJump, popV_cons _ hvs, if_neg hc]

/-- The rule of the four conditional jumps, each with its own predicate on the popped code. -/
theorem condJumpRule_of_exec {i : Instr} {taken : Word → Bool} {target : Word}
    (hexec : ∀ s, exec i s = condJump i taken target s) : CondJumpRule i target (taken · = true) := by
  intro s
  rw [hexec]
  refine ⟨fun c rest hvs => ⟨fun hc t ht => ?_, fun hc hnone => ?_, fun hc => ?_⟩, popV_nil_faults _⟩
  · rw [condJump_taken hvs hc]
    exact resolve_declared _ ht
  · rw [condJump_taken hvs hc]
    exact resolve_undeclared_faults _ hnone rfl rfl
  · exact condJump_not_taken hvs hc

/-- Settles O39: the four are one rule (`condJumpRule_of_exec`) with the predicates of R93 to R96. -/
theorem conditionalJumpsTestThePoppedCode : Obligations.ConditionalJumpsTestThePoppedCode := by
  intro target
  have hequal := condJumpRule_of_exec (i := .jumpEqual target) fun _ => rfl
  have hnotEqual := condJumpRule_of_exec (i := .jumpNotEqual target) fun _ => rfl
  have hgreater := condJumpRule_of_exec (i := .jumpGreater target) fun _ => rfl
  have hlesser := condJumpRule_of_exec (i := .jumpLesser target) fun _ => rfl
  simp only [takenEqual, takenNotEqual, takenGreater, takenLesser, decide_eq_true_eq]
    at hequal hnotEqual hgreater hlesser
  exact ⟨⟨rfl, hequal⟩, ⟨rfl, hnotEqual⟩, ⟨rfl, hgreater⟩, ⟨rfl, hlesser⟩⟩

theorem exec_call_room {target : Word} {s : State} (h : HasRoom s.params.rstackCap s.rs.length) :
    exec (.call target) s = resolve target (s.setRs ((s.pc + 1) :: s.rs)) transfer := by
  rw [exec, execCall, pushR_room _ h]

/-- Settles O40: with room the return address is pushed and the target resolved; a full stack is found first. -/
theorem callPushesTheReturnAddress : Obligations.CallPushesTheReturnAddress := by
  refine fun target s => ⟨rfl, fun hroom => ⟨fun t ht => ?_, fun hnone => ?_⟩, fun hfull => ?_⟩
  · rw [exec_call_room hroom]
    exact resolve_declared _ ht
  · rw [exec_call_room hroom]
    exact resolve_undeclared_faults _ hnone rfl rfl
  · rw [exec, execCall, pushR_full _ hfull]
    exact faults_raise rfl rfl

theorem exec_ret_cons {a : Nat} {rest : List Nat} {s : State} (h : s.rs = a :: rest) :
    exec .ret s = if s.length ≤ a then raise .outOfBounds (s.setRs rest) else transfer a (s.setRs rest) := by
  rw [exec, execReturn, popR_cons _ h, State.setRs_length]

theorem exec_ret_nil_faults {s : State} (h : s.rs = []) : Faults .stackUnderflow s (exec .ret s) := by
  rw [exec, execReturn]
  exact popR_nil_faults _ h

/-- Settles O41, by the popped address against `N`. -/
theorem returnPopsTheReturnAddress : Obligations.ReturnPopsTheReturnAddress := by
  refine ⟨rfl, fun s => ⟨fun a rest hrs => ⟨fun hlt => ?_, fun hle => ?_⟩, exec_ret_nil_faults⟩⟩
  · rw [exec_ret_cons hrs, if_neg hlt.not_ge]
    rfl
  · rw [exec_ret_cons hrs, if_pos hle]
    exact faults_raise rfl rfl

/-- Settles O42: `Halt` sets the status alone, and an ended run takes no step (`endedRunTakesNoStep`). -/
theorem haltEndsTheRun : Obligations.HaltEndsTheRun :=
  ⟨rfl, fun s => ⟨rfl, rfl, endedRunTakesNoStep (s.setStatus .halted) nofun⟩⟩

end Sys2Proof.Machine
end

section
/-! The family 41_stack.md: the stack operations. -/

namespace Sys2Proof.Machine

/-! ## Pops and pushes in a row (00_scope.md R14, R15) -/

/-- The stack is shorter than the pops to come: this pop underflows, or a later one does. The fault is the one of the
instruction started at `s₀`. -/
theorem popV_short_faults {n : Nat} {s₀ s : State} {k : Word → State → Out} (hpc : s.pc = s₀.pc) (hout : s.out = s₀.out)
    (hshort : s.vs.length < n + 1)
    (hk : ∀ a rest, rest.length < n → Faults .stackUnderflow s₀ (k a (s.setVs rest))) :
    Faults .stackUnderflow s₀ (popV s k) := by
  rcases hvs : s.vs with _ | ⟨a, rest⟩
  · rw [popV_nil k hvs]
    exact faults_raise hpc hout
  · rw [popV_cons k hvs]
    exact hk a rest (by simpa [hvs] using hshort)

theorem popV_popV_short_faults {s : State} (k : Word → Word → State → Out) (h : s.vs.length < 2) :
    Faults .stackUnderflow s (popV s fun a s => popV s (k a)) :=
  popV_short_faults rfl rfl h fun _ _ h₁ => popV_short_faults rfl rfl h₁ nofun

theorem popV_popV_popV_short_faults {s : State} (k : Word → Word → Word → State → Out) (h : s.vs.length < 3) :
    Faults .stackUnderflow s (popV s fun a s => popV s fun b s => popV s (k a b)) :=
  popV_short_faults rfl rfl h fun _ _ h₁ => popV_short_faults rfl rfl h₁ fun _ _ h₂ => popV_short_faults rfl rfl h₂ nofun

theorem popV_popV_cons {s : State} {a b : Word} {rest : List Word} (k : Word → Word → State → Out)
    (h : s.vs = a :: b :: rest) : (popV s fun a s => popV s (k a)) = k a b (s.setVs rest) := by
  rw [popV_cons _ h, popV_cons _ (State.setVs_vs _ _), State.setVs_setVs]

theorem pushV_setVs_room {v : Word} {vs : List Word} {s : State} (k : State → Out)
    (h : HasRoom s.params.vstackCap vs.length) : pushV v (s.setVs vs) k = k (s.setVs (v :: vs)) :=
  pushV_room k h

/-- A push after pops and pushes, onto a full stack: the fault is the one of the instruction started at `s₀`. -/
theorem pushV_full_faults {v : Word} {s₀ s : State} (k : State → Out) (hpc : s.pc = s₀.pc) (hout : s.out = s₀.out)
    (h : ¬ HasRoom s.params.vstackCap s.vs.length) : Faults .stackOverflow s₀ (pushV v s k) := by
  rw [pushV, if_pos (Bool.of_not_eq_false h)]
  exact faults_raise hpc hout

/-! ## Push, Pop and Dump (41_stack.md R120, R121, R125) -/

/-- Settles O22: `Push` is one `pushV` before its sequential end. -/
theorem pushPushesItsLiteral : Obligations.PushPushesItsLiteral := by
  intro v s
  rw [exec, execPush]
  exact ⟨rfl, pushV_room _, pushV_full_faults _ rfl rfl⟩

/-- Settles O23: `Pop` is one `popV` before its sequential end. -/
theorem popDropsTheTop : Obligations.PopDropsTheTop := by
  refine ⟨rfl, fun s => ?_⟩
  rw [exec, execPop]
  exact ⟨fun _ _ => popV_cons _, popV_nil_faults _⟩

/-- Settles O27: `Dump` is one `popV` before the emission. -/
theorem dumpEmitsTheTop : Obligations.DumpEmitsTheTop := by
  refine ⟨rfl, fun s => ?_⟩
  rw [exec, execDump]
  exact ⟨fun _ _ => popV_cons _, popV_nil_faults _⟩

/-! ## Dup (41_stack.md R122) -/

theorem exec_dup_nil {s : State} (h : s.vs = []) : exec .dup s = .next (advance .dup s) := by
  simp only [exec, execDup, h, sequential]

theorem exec_dup_cons {s : State} {a : Word} {rest : List Word} (h : s.vs = a :: rest) :
    exec .dup s = pushV a (s.setVs rest) fun s => pushV a s (sequential .dup) := by
  simp only [exec, execDup, h, popV_cons _ h]

/-- Settles O24. On a full stack the second push overflows, if the first did not already (entry 19). -/
theorem dupDuplicatesTheTop : Obligations.DupDuplicatesTheTop := by
  refine ⟨rfl, fun s => ⟨exec_dup_nil, fun a rest hvs hroom => ?_, fun hne hfull => ?_⟩⟩
  · rw [hvs] at hroom
    rw [exec_dup_cons hvs, pushV_setVs_room _ (hroom.fits_succ.hasRoom (by simp)), pushV_setVs_room _ hroom, sequential]
  · obtain ⟨a, rest, hvs⟩ := List.exists_cons_of_ne_nil hne
    rw [hvs] at hfull
    rw [exec_dup_cons hvs]
    exact pushV_answers ⟨rfl, rfl⟩ fun _ => pushV_full_faults _ rfl rfl hfull

/-! ## Swap and Rot (41_stack.md R123, R124) -/

theorem exec_swap_cons {s : State} {a b : Word} {rest : List Word} (hfit : Fits s.params.vstackCap s.vs.length)
    (hvs : s.vs = a :: b :: rest) : exec .swap s = .next (advance .swap (s.setVs (b :: a :: rest))) := by
  rw [hvs] at hfit
  rw [exec, execSwap, popV_popV_cons _ hvs, pushV_setVs_room _ (hfit.hasRoom (by simp)),
    pushV_setVs_room _ (hfit.hasRoom (by simp)), sequential]

/-- Settles O25: two pops leave room for the two pushes. -/
theorem swapExchangesTheTopTwo : Obligations.SwapExchangesTheTopTwo :=
  ⟨rfl, fun _ hfit => ⟨fun _ _ _ => exec_swap_cons hfit, popV_popV_short_faults _⟩⟩

theorem exec_rot_cons {s : State} {a b c : Word} {rest : List Word} (hfit : Fits s.params.vstackCap s.vs.length)
    (hvs : s.vs = a :: b :: c :: rest) : exec .rot s = .next (advance .rot (s.setVs (c :: b :: a :: rest))) := by
  rw [hvs] at hfit
  rw [exec, execRot, popV_popV_cons _ hvs, popV_cons _ (State.setVs_vs _ _), State.setVs_setVs,
    pushV_setVs_room _ (hfit.hasRoom (by simp only [List.length_cons]; omega)),
    pushV_setVs_room _ (hfit.hasRoom (by simp)), pushV_setVs_room _ (hfit.hasRoom (by simp)), sequential]

/-- Two rotations: the first leaves three values again and a stack of the same length. -/
theorem exec_rot_twice_vs {s : State} {a b c : Word} {rest : List Word} (hfit : Fits s.params.vstackCap s.vs.length)
    (hvs : s.vs = a :: b :: c :: rest) : Answers (exec .rot s) fun t => Answers (exec .rot t) fun u => u.vs = s.vs := by
  have hfit' : Fits s.params.vstackCap (c :: b :: a :: rest).length := by rwa [hvs] at hfit
  rw [exec_rot_cons hfit hvs]
  refine .next ?_
  rw [exec_rot_cons (by rwa [advance_params, advance_vs]) (advance_vs _ _)]
  exact .next (by rw [advance_vs, State.setVs_vs, hvs])

/-- Settles O26: the reversal, then the reversal of the reversal. -/
theorem rotReversesTheTopThree : Obligations.RotReversesTheTopThree :=
  ⟨rfl, fun _ hfit => ⟨fun _ _ _ _ hvs => ⟨exec_rot_cons hfit hvs, exec_rot_twice_vs hfit hvs⟩,
    popV_popV_popV_short_faults _⟩⟩

/-! ## Cmp (41_stack.md R126) -/

theorem cmpCode_self (w : Word) : cmpCode w w = 0#32 := if_pos rfl

theorem cmpCode_greater {lhs rhs : Word} (h : rhs.toNat < lhs.toNat) : cmpCode lhs rhs = 1#32 := by
  have hne : lhs ≠ rhs := fun heq => h.ne (congrArg BitVec.toNat heq.symm)
  rw [cmpCode, if_neg hne, if_pos h]

theorem cmpCode_lesser {lhs rhs : Word} (h : lhs.toNat < rhs.toNat) : cmpCode lhs rhs = 2#32 := by
  have hne : lhs ≠ rhs := fun heq => h.ne (congrArg BitVec.toNat heq)
  rw [cmpCode, if_neg hne, if_neg h.not_gt]

theorem exec_cmp_cons {s : State} {rhs lhs : Word} {rest : List Word} (hfit : Fits s.params.vstackCap s.vs.length)
    (hvs : s.vs = rhs :: lhs :: rest) : exec .cmp s = .next (advance .cmp (s.setVs (cmpCode lhs rhs :: rest))) := by
  rw [hvs] at hfit
  rw [exec, execCmp, popV_popV_cons _ hvs, pushV_setVs_room _ (hfit.hasRoom (by simp)), sequential]

/-- Settles O28, by the three cases of the comparison code. -/
theorem cmpPushesTheComparisonCode : Obligations.CmpPushesTheComparisonCode := by
  refine ⟨rfl, fun s hfit => ⟨fun rhs lhs rest hvs => ?_, popV_popV_short_faults _⟩⟩
  rw [exec_cmp_cons hfit hvs]
  refine ⟨fun heq => ?_, fun hgt => ?_, fun hlt => ?_⟩
  · rw [heq, cmpCode_self]
  · rw [cmpCode_greater hgt]
  · rw [cmpCode_lesser hlt]

end Sys2Proof.Machine
end

section
/-! The family 42_memops.md: the memory operations. -/

namespace Sys2Proof.Machine

/-! ## What a memory check raises, and what a range of cells reads as (00_scope.md section 5, 20_memory.md R44) -/

/-- A cell checked after pops: the fault is the one of the instruction started at `s₀`. -/
theorem checkCell_out_faults {a : Nat} {s₀ s : State} (k : State → Out) (hpc : s.pc = s₀.pc) (hout : s.out = s₀.out)
    (h : Config.cap ≤ a) : Faults .outOfBounds s₀ (checkCell a s k) := by
  rw [checkCell, if_neg h.not_gt]
  exact faults_raise hpc hout

/-- A range checked after pops: the fault is the one of the instruction started at `s₀`. -/
theorem checkRange_out_faults {a n : Nat} {s₀ s : State} (k : State → Out) (hpc : s.pc = s₀.pc)
    (hout : s.out = s₀.out) (h : Config.cap ≤ a ∨ Config.cap < a + n) :
    Faults .outOfBounds s₀ (checkRange a n s k) := by
  have hnot : ¬ inRange a n = true := by
    simp only [inRange, Bool.and_eq_true, decide_eq_true_eq]
    omega
  rw [checkRange, if_neg hnot]
  exact faults_raise hpc hout

/-- Cell `a + i` of a range write holds the `i`-th value. -/
theorem Memory.read_writeRange_at {m : Memory} {a i : Nat} {vs : List Word} {v : Word} (hm : Memory.wf m = true)
    (ha : a + vs.length ≤ Config.cap) (hv : vs[i]? = some v) :
    Memory.read (Memory.writeRange m a vs) (a + i) = v := by
  obtain ⟨hi, hget⟩ := List.getElem?_eq_some_iff.1 hv
  rw [Memory.writeRange, Memory.read_writeSome_at hm (by simpa using ha) (by simpa using hi), List.getElem_map, hget,
    Option.getD_some]

theorem Memory.read_writeRange_other {m : Memory} {a b : Nat} {vs : List Word} (hm : Memory.wf m = true)
    (ha : a + vs.length ≤ Config.cap) (hb : b < a ∨ a + vs.length ≤ b) :
    Memory.read (Memory.writeRange m a vs) b = Memory.read m b :=
  Memory.read_writeSome_other hm (by simpa using ha) (by simpa using hb)

/-! ## Load (42_memops.md R140) -/

theorem exec_load_cons {s : State} {addr : Word} {rest : List Word} (hfit : Fits s.params.vstackCap s.vs.length)
    (hvs : s.vs = addr :: rest) (haddr : addr.toNat < Config.cap) :
    exec .load s = .next (advance .load (s.setVs (Memory.read s.mem addr.toNat :: rest))) := by
  rw [hvs] at hfit
  rw [exec, execLoad, popV_cons _ hvs, checkCell_in _ haddr, pushV_setVs_room _ (hfit.hasRoom (by simp)), sequential,
    State.setVs_mem]

theorem exec_load_out_faults {s : State} {addr : Word} {rest : List Word} (hvs : s.vs = addr :: rest)
    (haddr : Config.cap ≤ addr.toNat) : Faults .outOfBounds s (exec .load s) := by
  rw [exec, execLoad, popV_cons _ hvs]
  exact checkCell_out_faults _ rfl rfl haddr

theorem exec_load_nil_faults {s : State} (h : s.vs = []) : Faults .stackUnderflow s (exec .load s) := by
  rw [exec, execLoad]
  exact popV_nil_faults _ h

/-- Settles O29: the pop leaves room for the push, and the address is checked in between. -/
theorem loadPushesTheCell : Obligations.LoadPushesTheCell :=
  ⟨rfl, fun _ => ⟨fun _ _ hvs => ⟨fun haddr hfit => exec_load_cons hfit hvs haddr, exec_load_out_faults hvs⟩,
    exec_load_nil_faults⟩⟩

/-! ## Store (42_memops.md R141) -/

theorem exec_store_addr_in {s : State} {addr : Word} {rest : List Word} (hvs : s.vs = addr :: rest)
    (haddr : addr.toNat < Config.cap) :
    exec .store s = popV (s.setVs rest) fun v s =>
      sequential .store (s.setMem (Memory.write s.mem addr.toNat v)) := by
  rw [exec, execStore, popV_cons _ hvs, checkCell_in _ haddr]

theorem exec_store_cons {s : State} {addr v : Word} {rest : List Word} (hvs : s.vs = addr :: v :: rest)
    (haddr : addr.toNat < Config.cap) :
    exec .store s = .next (advance .store ((s.setVs rest).setMem (Memory.write s.mem addr.toNat v))) := by
  rw [exec_store_addr_in hvs haddr, popV_cons _ (State.setVs_vs _ _), State.setVs_setVs, sequential, State.setVs_mem]

theorem exec_store_addr_out_faults {s : State} {addr : Word} {rest : List Word} (hvs : s.vs = addr :: rest)
    (haddr : Config.cap ≤ addr.toNat) : Faults .outOfBounds s (exec .store s) := by
  rw [exec, execStore, popV_cons _ hvs]
  exact checkCell_out_faults _ rfl rfl haddr

/-- With a legal address and no value, the second pop underflows. -/
theorem exec_store_no_value_faults {s : State} {addr : Word} (hvs : s.vs = [addr]) (haddr : addr.toNat < Config.cap) :
    Faults .stackUnderflow s (exec .store s) := by
  rw [exec_store_addr_in hvs haddr, popV_nil _ (State.setVs_vs _ _)]
  exact faults_raise rfl rfl

theorem exec_store_nil_faults {s : State} (h : s.vs = []) : Faults .stackUnderflow s (exec .store s) := by
  rw [exec, execStore]
  exact popV_nil_faults _ h

/-- Settles O30, in the order of the pseudocode: the address, its bound, the value, the write (`Memory.read_write`). -/
theorem storeWritesTheCell : Obligations.StoreWritesTheCell := by
  refine ⟨rfl, fun s hm => ⟨fun addr v rest hvs haddr => ⟨_, exec_store_cons hvs haddr, ?_, fun a hne => ?_⟩,
    fun _ _ => exec_store_addr_out_faults, fun _ => exec_store_no_value_faults, exec_store_nil_faults⟩⟩
  · rw [Memory.read_write hm, if_pos rfl]
  · rw [Memory.read_write hm, if_neg hne]

/-! ## InsertString (42_memops.md R142) -/

theorem exec_insertString_cons {text : Text} {s : State} {addr : Word} {rest : List Word} (hvs : s.vs = addr :: rest)
    (haddr : addr.toNat < Config.cap) (hend : addr.toNat + text.length ≤ Config.cap) :
    exec (.insertString text) s = .next (advance (.insertString text)
      ((s.setVs rest).setMem (Memory.writeRange s.mem addr.toNat (text.map byteToCell)))) := by
  rw [exec, execInsertString, popV_cons _ hvs, checkRange_in _ haddr hend, sequential, State.setVs_mem]

theorem exec_insertString_out_faults {text : Text} {s : State} {addr : Word} {rest : List Word}
    (hvs : s.vs = addr :: rest) (hout : Config.cap ≤ addr.toNat ∨ Config.cap < addr.toNat + text.length) :
    Faults .outOfBounds s (exec (.insertString text) s) := by
  rw [exec, execInsertString, popV_cons _ hvs]
  exact checkRange_out_faults _ rfl rfl hout

theorem exec_insertString_nil_faults {text : Text} {s : State} (h : s.vs = []) :
    Faults .stackUnderflow s (exec (.insertString text) s) := by
  rw [exec, execInsertString]
  exact popV_nil_faults _ h

/-- Settles O31: the memory left is the range write of the text's bytes, read inside and outside the range. -/
theorem insertStringWritesItsText : Obligations.InsertStringWritesItsText := by
  refine fun text s hm => ⟨rfl, fun addr rest hvs => ⟨fun haddr hend => ?_, exec_insertString_out_faults hvs⟩,
    exec_insertString_nil_faults⟩
  have hlen : addr.toNat + (text.map byteToCell).length ≤ Config.cap := by rwa [List.length_map]
  refine ⟨_, exec_insertString_cons hvs haddr hend, fun i b hb => ?_, fun a ha => ?_⟩
  · have hcell : (text.map byteToCell)[i]? = some (byteToCell b) := by rw [List.getElem?_map, hb, Option.map_some]
    exact Memory.read_writeRange_at hm hlen hcell
  · exact Memory.read_writeRange_other hm hlen (by rwa [List.length_map])

/-! ## A Load after a Store (20_memory.md R54, 70_reset_and_hazards.md R233) -/

theorem exec_push_room {s : State} (v : Word) (h : HasRoom s.params.vstackCap s.vs.length) :
    exec (.push v) s = .next (advance (.push v) (s.setVs (v :: s.vs))) := by
  obtain ⟨-, hpush, -⟩ := pushPushesItsLiteral v s
  exact hpush h

/-- `Push` of an address and then `Load` push that cell's value and leave memory alone. -/
theorem push_then_load {s : State} {addr : Word} (hroom : HasRoom s.params.vstackCap s.vs.length)
    (haddr : addr.toNat < Config.cap) :
    Answers (exec (.push addr) s) fun t => Answers (exec .load t) fun u =>
      u.vs = Memory.read s.mem addr.toNat :: s.vs ∧ u.mem = s.mem := by
  rw [exec_push_room addr hroom]
  refine .next ?_
  rw [exec_load_cons (rest := s.vs) (by simpa using hroom.fits_succ) (by simp) haddr]
  exact .next (by simp)

/-- Settles O32: `Store` pops two, so the address can be pushed again, and its cell reads as the value written. -/
theorem storeThenLoadReadsTheStoredValue : Obligations.StoreThenLoadReadsTheStoredValue := by
  intro s addr v rest hvs haddr hm hfit
  rw [hvs] at hfit
  have hroom : HasRoom s.params.vstackCap rest.length := hfit.hasRoom (by simp only [List.length_cons]; omega)
  rw [exec_store_cons hvs haddr]
  refine .next ((push_then_load (by simpa using hroom) haddr).imp fun _ h => h.imp fun _ hload => ?_)
  simpa [Memory.read_write hm] using hload

end Sys2Proof.Machine
end

section
/-! The family 43_binary_expr.md: the binary expressions. -/

namespace Sys2Proof.Machine

/-! ## The shared body (43_binary_expr.md R155) -/

/-- A result that is a u32, written as the number `n`, replaces the two operands. -/
theorem binaryExpr_exact {i : Instr} {op : Int → Int → Int} {s : State} {rhs lhs : Word} {rest : List Word} {n : Nat}
    (hfit : Fits s.params.vstackCap s.vs.length) (hvs : s.vs = rhs :: lhs :: rest)
    (hop : op lhs.toNat rhs.toNat = n) (hn : n ≤ 4294967295) :
    binaryExpr i op s = .next (advance i (s.setVs (BitVec.ofNat 32 n :: rest))) := by
  have hu32 : ¬ ((n : Int) < 0 ∨ Config.maxValue < n) := by
    rw [Config.maxValue]
    omega
  rw [hvs] at hfit
  rw [binaryExpr, popV_popV_cons _ hvs, hop, if_neg hu32, pushV_setVs_room _ (hfit.hasRoom (by simp)), sequential,
    BitVec.ofInt_natCast]

theorem binaryExpr_overflow_faults {i : Instr} {op : Int → Int → Int} {s : State} {rhs lhs : Word} {rest : List Word}
    (hvs : s.vs = rhs :: lhs :: rest) (hop : op lhs.toNat rhs.toNat < 0 ∨ 4294967295 < op lhs.toNat rhs.toNat) :
    Faults .arithmeticOverflow s (binaryExpr i op s) := by
  rw [binaryExpr, popV_popV_cons _ hvs, Config.maxValue, if_pos hop]
  exact faults_raise rfl rfl

theorem binaryExpr_short_faults {i : Instr} {op : Int → Int → Int} {s : State} (h : s.vs.length < 2) :
    Faults .stackUnderflow s (binaryExpr i op s) :=
  popV_popV_short_faults _ h

/-! ## Add, Sub and Mul (43_binary_expr.md R156 to R158) -/

/-- Settles O33: a sum of naturals is never below zero, so it overflows only above u32. -/
theorem addIsExactOrFaults : Obligations.AddIsExactOrFaults := by
  refine ⟨rfl, fun s hfit => ⟨fun rhs lhs rest hvs => ⟨fun hle => ?_, fun hgt => ?_⟩, binaryExpr_short_faults⟩⟩
  · exact binaryExpr_exact hfit hvs (Nat.cast_add _ _).symm hle
  · exact binaryExpr_overflow_faults hvs (.inr (mod_cast hgt))

/-- Settles O34: a difference of two u32 values never exceeds the first, so it overflows only below zero. -/
theorem subIsExactOrFaults : Obligations.SubIsExactOrFaults := by
  refine ⟨rfl, fun s hfit => ⟨fun rhs lhs rest hvs => ⟨fun hle => ?_, fun hlt => ?_⟩, binaryExpr_short_faults⟩⟩
  · have hmax : lhs.toNat - rhs.toNat ≤ 4294967295 := (Nat.sub_le _ _).trans (Nat.le_of_lt_succ lhs.isLt)
    exact binaryExpr_exact hfit hvs (Nat.cast_sub hle).symm hmax
  · exact binaryExpr_overflow_faults hvs (.inl (Int.sub_neg_of_lt (mod_cast hlt)))

/-- Settles O35: a product of naturals is never below zero, so it overflows only above u32. -/
theorem mulIsExactOrFaults : Obligations.MulIsExactOrFaults := by
  refine ⟨rfl, fun s hfit => ⟨fun rhs lhs rest hvs => ⟨fun hle => ?_, fun hgt => ?_⟩, binaryExpr_short_faults⟩⟩
  · exact binaryExpr_exact hfit hvs (Nat.cast_mul _ _).symm hle
  · exact binaryExpr_overflow_faults hvs (.inr (mod_cast hgt))

/-! ## Div (43_binary_expr.md R159) -/

theorem exec_div_nonzero {s : State} {rhs lhs : Word} {rest : List Word} (hfit : Fits s.params.vstackCap s.vs.length)
    (hvs : s.vs = rhs :: lhs :: rest) (hne : rhs ≠ 0#32) :
    exec .div s = .next (advance .div (s.setVs (BitVec.ofNat 32 (lhs.toNat / rhs.toNat) :: rest))) := by
  rw [hvs] at hfit
  rw [exec, execDiv, popV_popV_cons _ hvs, if_neg hne, pushV_setVs_room _ (hfit.hasRoom (by simp)), sequential]

theorem exec_div_zero_faults {s : State} {rhs lhs : Word} {rest : List Word} (hvs : s.vs = rhs :: lhs :: rest)
    (hzero : rhs = 0#32) : Faults .divideByZero s (exec .div s) := by
  rw [exec, execDiv, popV_popV_cons _ hvs, if_pos hzero]
  exact faults_raise rfl rfl

/-- Settles O36: the divisor is tested after both pops, and its test does not look at the dividend. -/
theorem divIsFloorOrFaults : Obligations.DivIsFloorOrFaults :=
  ⟨rfl, fun _ hfit => ⟨fun _ _ _ hvs => ⟨exec_div_nonzero hfit hvs, exec_div_zero_faults hvs⟩,
    popV_popV_short_faults _⟩⟩

end Sys2Proof.Machine
end

section
/-! The family 44_syscall.md: the host's answers, the ends of a host call, the calls of `Syscall`, and the wait. -/

namespace Sys2Proof.Machine

/-! ## The host's answers (44_syscall.md R178, R185) -/

theorem hostAnswer_settled {req : HostRequest} {s : State} {r : Option HostReply} {rest : List (Option HostReply)}
    (h : s.env.hostIn = r :: rest) : hostAnswer req s = (r, s.setEnv { s.env with hostIn := rest }) := by
  simp only [hostAnswer, h]

theorem hostAnswer_drawn {req : HostRequest} {s : State} (h : s.env.hostIn = []) :
    hostAnswer req s = (Config.hostReply s.env.draws req, s.draw) := by
  simp only [hostAnswer, h]

/-- Settles O49: the two cases of `hostAnswer`. -/
theorem hostAnswersFromTheOutside : Obligations.HostAnswersFromTheOutside :=
  fun _ _ => ⟨fun _ _ => hostAnswer_settled, hostAnswer_drawn⟩

/-- What the host answers decides the whole of `hostAnswer` but the view of the outside world. -/
theorem hostAnswer_of_fst {req : HostRequest} {s : State} {a : Option HostReply} (h : (hostAnswer req s).1 = a) :
    ∃ e, hostAnswer req s = (a, s.setEnv e) := by
  obtain ⟨e, he⟩ := hostAnswer_env req s
  exact ⟨e, Prod.ext h he⟩

/-! ## What a successful reply stores (44_syscall.md R176, R177) -/

theorem Memory.read_writeSome_getElem? {m : Memory} {a i : Nat} {cells : List (Option Word)} {cell : Option Word}
    (hm : Memory.wf m = true) (ha : a + cells.length ≤ Config.cap) (hcell : cells[i]? = some cell) :
    Memory.read (Memory.writeSome m a cells) (a + i) = cell.getD (Memory.read m (a + i)) := by
  obtain ⟨hi, hget⟩ := List.getElem?_eq_some_iff.1 hcell
  rw [Memory.read_writeSome_at hm ha hi, hget]

/-- A cell of the tail is kept or becomes some byte. -/
theorem tailCells_mem {n : Nat} {tail : List (Option Byte)} {cell : Option Word} (h : cell ∈ tailCells n tail) :
    ∃ b : Option Byte, cell = b.map byteToCell := by
  induction n generalizing tail with
  | zero => cases h
  | succ n ih =>
    cases tail with
    | nil =>
      obtain rfl | h := List.mem_cons.1 h
      · exact ⟨none, rfl⟩
      · exact ih h
    | cons b rest =>
      obtain rfl | h := List.mem_cons.1 h
      · exact ⟨b, rfl⟩
      · exact ih h

theorem replyCells_of_length_le {count : Nat} {data : List Byte} (tail : List (Option Byte))
    (h : data.length ≤ count) :
    replyCells count data tail =
      data.map (fun b => some (byteToCell b)) ++ tailCells (count - data.length) tail := by
  rw [replyCells, List.take_of_length_le h]

theorem replyCells_data {count i : Nat} {data : List Byte} {b : Byte} (tail : List (Option Byte))
    (hlen : data.length ≤ count) (hb : data[i]? = some b) :
    (replyCells count data tail)[i]? = some (some (byteToCell b)) := by
  have hi : i < data.length := (List.getElem?_eq_some_iff.1 hb).1
  rw [replyCells_of_length_le tail hlen, List.getElem?_append_left (by simpa using hi), List.getElem?_map, hb,
    Option.map_some]

theorem replyCells_tail {count i : Nat} {data : List Byte} (tail : List (Option Byte))
    (hlen : data.length ≤ count) (hi : data.length ≤ i) (hi' : i < count) :
    ∃ b : Option Byte, (replyCells count data tail)[i]? = some (b.map byteToCell) := by
  have hcell : (replyCells count data tail)[i]? = (tailCells (count - data.length) tail)[i - data.length]? := by
    rw [replyCells_of_length_le tail hlen, List.getElem?_append_right (by simpa using hi), List.length_map]
  have hin : i - data.length < (tailCells (count - data.length) tail).length := by
    rw [tailCells_length]
    omega
  obtain ⟨b, hb⟩ := tailCells_mem (List.getElem_mem hin)
  exact ⟨b, by rw [hcell, List.getElem?_eq_getElem hin, hb]⟩

/-- The bytes read, the tail and the cells outside the buffer, clause by clause (44_syscall.md R177). -/
theorem replyMemory_readFills {fd buf count : Word} {data : List Byte} {m : Memory} (tail : List (Option Byte))
    (hm : Memory.wf m = true) (hend : buf.toNat + count.toNat ≤ Config.cap) (hlen : data.length ≤ count.toNat) :
    ReadFills buf count data m (replyMemory (.read fd buf count) data tail m) := by
  have hcells : buf.toNat + (replyCells count.toNat data tail).length ≤ Config.cap := by
    rwa [replyCells_length]
  refine ⟨fun i b hb => ?_, fun i hi hi' => ?_, fun a ha => ?_⟩
  · exact Memory.read_writeSome_getElem? hm hcells (replyCells_data tail hlen hb)
  · obtain ⟨b, hb⟩ := replyCells_tail tail hlen hi hi'
    have hread := Memory.read_writeSome_getElem? hm hcells hb
    cases b with
    | none => exact .inl hread
    | some b => exact .inr ⟨b, hread⟩
  · exact Memory.read_writeSome_other hm hcells (by rwa [replyCells_length])

theorem replyMemory_callWrites {c : HostCall} {data : List Byte} {m : Memory} (tail : List (Option Byte))
    (hc : callInRange c = true) (hm : Memory.wf m = true)
    (hlen : ∀ fd buf count, c = .read fd buf count → data.length ≤ count.toNat) :
    CallWrites c data m (replyMemory c data tail m) := by
  cases c with
  | read fd buf count =>
    simp only [callInRange, inRange, Bool.and_eq_true, decide_eq_true_eq] at hc
    exact replyMemory_readFills tail hm hc.2 (hlen fd buf count rfl)
  | write | openFile | close => rfl

/-! ## The ends of a host call (44_syscall.md R178, R179). `callHost_wait` is the third. -/

theorem callHost_ok {c : HostCall} {data : List Byte} {tail : List (Option Byte)} {fd : Word} {s s' : State}
    (h : hostAnswer (hostRequest c) s = (some (.ok data tail fd), s')) :
    callHost c s = .next (advance .syscall
      ((exchanged c (.ok data tail fd) s').setMem (replyMemory c data tail s.mem))) := by
  obtain ⟨e, rfl⟩ := hostAnswer_state h
  rw [callHost_reply h]
  rfl

/-- A success of a call that stores nothing. -/
theorem callHost_ok_storeless {c : HostCall} {data : List Byte} {tail : List (Option Byte)} {fd : Word} {s s' : State}
    (hc : ∀ fd buf count, c ≠ .read fd buf count)
    (h : hostAnswer (hostRequest c) s = (some (.ok data tail fd), s')) :
    callHost c s = .next (advance .syscall (exchanged c (.ok data tail fd) s')) := by
  have hmem : replyMemory c data tail s.mem = s.mem := by
    cases c with
    | read fd buf count => exact absurd rfl (hc fd buf count)
    | write | openFile | close => rfl
  rw [callHost_ok h, hmem]
  obtain ⟨e, rfl⟩ := hostAnswer_state h
  rfl

/-- A failure after pops: the fault is the one of the instruction started at `s₀`. -/
theorem callHost_fails {c : HostCall} {msg : Text} {s₀ s s' : State} (hpc : s.pc = s₀.pc) (hout : s.out = s₀.out)
    (hmem : s.mem = s₀.mem) (h : hostAnswer (hostRequest c) s = (some (.fail msg), s')) :
    CallFails c msg s₀ (callHost c s) := by
  obtain ⟨e, rfl⟩ := hostAnswer_state h
  rw [callHost_reply h]
  refine raise_answers ⟨congrArg _ hpc, ?_, rfl, fun a => congrArg (Memory.read · a) hmem⟩
  simp [exchanged, hout]

/-- The three ends of a call that stores nothing, made after pops. -/
theorem callHost_storeless_ends {c : HostCall} (s : State) (vs : List Word)
    (hc : ∀ fd buf count, c ≠ .read fd buf count) :
    (∀ data tail fd s', hostAnswer (hostRequest c) (s.setVs vs) = (some (.ok data tail fd), s') →
      callHost c (s.setVs vs) = .next (advance .syscall (exchanged c (.ok data tail fd) s'))) ∧
    (∀ msg s', hostAnswer (hostRequest c) (s.setVs vs) = (some (.fail msg), s') →
      CallFails c msg s (callHost c (s.setVs vs))) ∧
    (∀ s', hostAnswer (hostRequest c) (s.setVs vs) = (none, s') →
      callHost c (s.setVs vs) = .next (s'.setHold (some (.host c)))) :=
  ⟨fun _ _ _ _ => callHost_ok_storeless hc, fun _ _ => callHost_fails rfl rfl rfl, fun _ => callHost_wait⟩

/-! ## The code of a `Syscall` (44_syscall.md R170, R171) -/

theorem exec_syscall_nil_faults {s : State} (h : s.vs = []) : Faults .stackUnderflow s (exec .syscall s) := by
  rw [exec, execSyscall]
  exact popV_nil_faults _ h

theorem exec_syscall_zero {s : State} {args : List Word} (h : s.vs = 0#32 :: args) :
    exec .syscall s = sysRead (s.setVs args) := by
  rw [exec, execSyscall, popV_cons _ h]
  rfl

theorem exec_syscall_one {s : State} {args : List Word} (h : s.vs = 1#32 :: args) :
    exec .syscall s = sysWrite (s.setVs args) := by
  rw [exec, execSyscall, popV_cons _ h]
  rfl

theorem exec_syscall_two {s : State} {args : List Word} (h : s.vs = 2#32 :: args) :
    exec .syscall s = sysOpen (s.setVs args) := by
  rw [exec, execSyscall, popV_cons _ h]
  rfl

theorem exec_syscall_three {s : State} {args : List Word} (h : s.vs = 3#32 :: args) :
    exec .syscall s = sysClose (s.setVs args) := by
  rw [exec, execSyscall, popV_cons _ h]
  rfl

/-- Settles O43: a code from 4 up is none of the four that have a call. -/
theorem unknownSyscallCodesFault : Obligations.UnknownSyscallCodesFault := by
  intro s code rest hvs hcode
  rw [exec, execSyscall, popV_cons _ hvs]
  split
  case h_5 => exact faults_raise rfl rfl
  all_goals omega

/-- Settles O44: the code is popped first, and then the call's own pops run short. -/
theorem syscallUnderflow : Obligations.SyscallUnderflow := by
  refine fun s => ⟨exec_syscall_nil_faults, fun args hvs hshort => ?_, fun args hvs hshort => ?_,
    fun args hvs hshort => ?_, fun hvs => ?_⟩
  · rw [exec_syscall_zero hvs]
    exact popV_popV_popV_short_faults (s := s.setVs args) _ hshort
  · rw [exec_syscall_one hvs]
    exact popV_popV_popV_short_faults (s := s.setVs args) _ hshort
  · rw [exec_syscall_two hvs]
    exact popV_popV_short_faults (s := s.setVs args) _ hshort
  · rw [exec_syscall_three hvs]
    exact popV_nil_faults (s := s.setVs []) _ rfl

/-! ## Read and Write (44_syscall.md R172, R173) -/

theorem popV_popV_popV_cons {s : State} {a b c : Word} {rest : List Word} (k : Word → Word → Word → State → Out)
    (h : s.vs = a :: b :: c :: rest) :
    (popV s fun a s => popV s fun b s => popV s (k a b)) = k a b c (s.setVs rest) := by
  rw [popV_popV_cons _ h, popV_cons _ (State.setVs_vs _ _), State.setVs_setVs]

theorem exec_syscall_read {s : State} {fd buf count : Word} {rest : List Word}
    (hvs : s.vs = 0#32 :: fd :: buf :: count :: rest) :
    exec .syscall s = checkRange buf.toNat count.toNat (s.setVs rest) (callHost (.read fd buf count)) := by
  rw [exec_syscall_zero hvs, sysRead, popV_popV_popV_cons _ (State.setVs_vs _ _), State.setVs_setVs]

theorem exec_syscall_write {s : State} {fd buf count : Word} {rest : List Word}
    (hvs : s.vs = 1#32 :: fd :: buf :: count :: rest) :
    exec .syscall s = checkRange buf.toNat count.toNat (s.setVs rest) fun s =>
      callHost (.write fd ((Memory.readRange s.mem buf.toNat count.toNat).map cellToByte)) s := by
  rw [exec_syscall_one hvs, sysWrite, popV_popV_popV_cons _ (State.setVs_vs _ _), State.setVs_setVs]

/-- Settles O45: after the range check the three ends of the host call, the success with the memory of
`replyMemory_readFills`. -/
theorem syscallReadFillsTheBuffer : Obligations.SyscallReadFillsTheBuffer := by
  intro s fd buf count rest hvs hm
  rw [exec_syscall_read hvs]
  refine ⟨checkRange_out_faults _ rfl rfl, fun hbuf hend => ?_⟩
  rw [checkRange_in _ hbuf hend]
  refine ⟨fun data tail fd' s' h hlen => ?_, fun msg s' => callHost_fails (c := .read fd buf count) rfl rfl rfl,
    fun s' => callHost_wait (c := .read fd buf count)⟩
  exact ⟨_, callHost_ok (c := .read fd buf count) h, replyMemory_readFills tail hm hend hlen⟩

/-- The bytes a Write sends: the low byte of each cell of the range. -/
theorem map_cellToByte_readRange (m : Memory) (a n : Nat) :
    (Memory.readRange m a n).map cellToByte = (List.range n).map fun i => (Memory.read m (a + i)).setWidth 8 := by
  rw [Memory.readRange, List.map_map]
  rfl

/-- Settles O46: after the range check the three ends of a host call that stores nothing. -/
theorem syscallWriteSendsTheCells : Obligations.SyscallWriteSendsTheCells := by
  intro s fd buf count rest hvs
  rw [exec_syscall_write hvs]
  refine ⟨checkRange_out_faults _ rfl rfl, fun hbuf hend bytes hbytes => ?_⟩
  rw [checkRange_in _ hbuf hend, State.setVs_mem, map_cellToByte_readRange, ← hbytes]
  exact callHost_storeless_ends (c := .write fd bytes) s rest nofun

/-! ## Open (44_syscall.md R174) -/

theorem pathFrom_eq_none {m : Memory} {a fuel : Nat}
    (h : ∀ j, a ≤ j → j < a + fuel → Memory.read m j ≠ 0#32) : pathFrom m a fuel = none := by
  induction fuel generalizing a with
  | zero => rfl
  | succ fuel ih =>
    have hrest : pathFrom m (a + 1) fuel = none := ih fun j hj hj' => h j (by omega) (by omega)
    rw [pathFrom, if_neg (h a le_rfl (by omega)), hrest, Option.map_none]

/-- The path ends before the first zero cell, `n` cells on. -/
theorem pathFrom_eq_some {m : Memory} {a n fuel : Nat} (hn : n < fuel) (hzero : Memory.read m (a + n) = 0#32)
    (hfirst : ∀ k, k < n → Memory.read m (a + k) ≠ 0#32) :
    pathFrom m a fuel = some ((List.range n).map fun i => cellToByte (Memory.read m (a + i))) := by
  induction n generalizing a fuel with
  | zero =>
    obtain ⟨fuel, rfl⟩ := Nat.exists_eq_succ_of_ne_zero (Nat.ne_zero_of_lt hn)
    exact if_pos hzero
  | succ n ih =>
    obtain ⟨fuel, rfl⟩ := Nat.exists_eq_succ_of_ne_zero (Nat.ne_zero_of_lt hn)
    have hshift : ∀ k, a + 1 + k = a + (k + 1) := fun k => by omega
    have hrest := ih (a := a + 1) (Nat.lt_of_succ_lt_succ hn) (by rwa [hshift]) fun k hk => by
      rw [hshift]
      exact hfirst (k + 1) (Nat.succ_lt_succ hk)
    have hhead : Memory.read m a ≠ 0#32 := hfirst 0 n.succ_pos
    rw [pathFrom, if_neg hhead, hrest, Option.map_some, List.range_succ_eq_map, List.map_cons,
      List.map_map]
    simp only [hshift]
    rfl

theorem exec_syscall_open {s : State} {ptr flags : Word} {rest : List Word}
    (hvs : s.vs = 2#32 :: ptr :: flags :: rest) :
    exec .syscall s = checkCell ptr.toNat (s.setVs rest) fun s =>
      scanPath ptr.toNat s fun path s => callHost (.openFile path flags) s := by
  rw [exec_syscall_two hvs, sysOpen, popV_popV_cons _ (State.setVs_vs _ _), State.setVs_setVs]

/-- A scan without a zero cell after pops: the fault is the one of the instruction started at `s₀`. -/
theorem scanPath_none_faults {ptr : Nat} {s₀ s : State} (k : List Byte → State → Out) (hpc : s.pc = s₀.pc)
    (hout : s.out = s₀.out) (h : pathFrom s.mem ptr (Config.cap - ptr) = none) :
    Faults .outOfBounds s₀ (scanPath ptr s k) := by
  simp only [scanPath, h]
  exact faults_raise hpc hout

theorem scanPath_some {ptr : Nat} {s : State} {path : List Byte} (k : List Byte → State → Out)
    (h : pathFrom s.mem ptr (Config.cap - ptr) = some path) : scanPath ptr s k = k path s := by
  simp only [scanPath, h]

/-- Settles O47: the pointer's check, the scan for the first zero cell, and the three ends of a host call that stores
nothing. -/
theorem syscallOpenSendsThePath : Obligations.SyscallOpenSendsThePath := by
  intro s ptr flags rest hvs
  rw [exec_syscall_open hvs]
  refine ⟨checkCell_out_faults _ rfl rfl, fun hnonzero => ?_, fun n hn hzero hfirst path hpath => ?_⟩
  · by_cases hptr : ptr.toNat < Config.cap
    · rw [checkCell_in _ hptr]
      refine scanPath_none_faults _ rfl rfl (pathFrom_eq_none fun j hj hj' => hnonzero j hj ?_)
      rwa [Nat.add_sub_cancel' hptr.le] at hj'
    · exact checkCell_out_faults _ rfl rfl (not_lt.1 hptr)
  · have hscan : pathFrom (s.setVs rest).mem ptr.toNat (Config.cap - ptr.toNat) = some path :=
      hpath ▸ pathFrom_eq_some (by omega) hzero hfirst
    rw [checkCell_in _ (by omega), scanPath_some _ hscan]
    exact callHost_storeless_ends (c := .openFile path flags) s rest nofun

/-! ## Close (44_syscall.md R175) -/

theorem exec_syscall_close {s : State} {fd : Word} {rest : List Word} (hvs : s.vs = 3#32 :: fd :: rest) :
    exec .syscall s = callHost (.close fd) (s.setVs rest) := by
  rw [exec_syscall_three hvs, sysClose, popV_cons _ (State.setVs_vs _ _), State.setVs_setVs]

/-- Settles O48: `Close` is one pop and a host call that stores nothing. -/
theorem syscallCloseSendsTheDescriptor : Obligations.SyscallCloseSendsTheDescriptor := by
  intro s fd rest hvs
  rw [exec_syscall_close hvs]
  exact callHost_storeless_ends (c := .close fd) s rest nofun

/-! ## While a host call is pending (44_syscall.md R179, R186) -/

theorem State.setHold_self {s : State} {h : Option Hold} (hhold : s.hold = h) : s.setHold h = s := by
  subst hhold
  rfl

theorem advance_pc (i : Instr) (s : State) : (advance i s).pc = if s.debug then s.pc else s.pc + 1 := by
  unfold advance
  split_ifs <;> rfl

/-- A sequential end leaves no wait for the host behind, only the debug stop's (60_exceptions.md R215, R218). -/
theorem advance_hold_ne_host (i : Instr) {s : State} {c : HostCall} (h : s.hold = none) :
    (advance i s).hold ≠ some (.host c) := by
  cases hdebug : s.debug with
  | false => simp [advance_plain i hdebug, h]
  | true => simp [advance_debugging i hdebug]

theorem finishCall_ends (c : HostCall) (r : HostReply) (s : State) :
    Answers (finishCall c r s) fun t => t.hold ≠ some (.host c) ∧
      t.out.hostLog = s.out.hostLog ++ [(hostRequest c, r)] := by
  cases r with
  | fail msg => exact raise_answers ⟨nofun, rfl⟩
  | ok data tail fd => exact sequential_answers ⟨advance_hold_ne_host _ rfl, advance_hostLog _ _⟩

/-- Settles O50: a step in the wait is the host call made again (`step_host`), with its three ends; the invariant has
the buffer of a pending Read in memory. -/
theorem holdLastsUntilTheHostReplies : Obligations.HoldLastsUntilTheHostReplies := by
  intro s c hrun hhold
  rw [step_host hrun hhold]
  refine ⟨fun s' h => ?_, fun r s' h => ?_, fun hs => ⟨fun msg s' => callHost_fails rfl rfl rfl, ?_⟩⟩
  · obtain ⟨e, rfl⟩ := hostAnswer_state h
    exact ⟨e, by rw [callHost_wait h, State.setHold_self (s := s.setEnv e) hhold]⟩
  · obtain ⟨e, rfl⟩ := hostAnswer_state h
    rw [callHost_reply h]
    exact finishCall_ends c r _
  · intro data tail fd s' h hlen
    obtain ⟨-, -, hc⟩ := hs.hold_host c hhold
    exact ⟨_, callHost_ok h, replyMemory_callWrites tail hc hs.mem_wf hlen⟩

/-- Settles O51: what holds of every end of the call comes from `HostEffect`, the rest from the end that the host's
answer picks. -/
theorem hostTouchesOnlyTheReadBuffer : Obligations.HostTouchesOnlyTheReadBuffer := by
  intro s t c hs hhold hstep
  obtain ⟨hrun, -, hc⟩ := hs.hold_host c hhold
  rw [step_host hrun hhold] at hstep
  have heffect : HostEffect c s t := (callHost_effect c s).of_eq hstep
  obtain ⟨hprog, hlabels, -, -⟩ := heffect.sameSetup
  refine ⟨hprog, hlabels, heffect.emitted_eq, fun hnone => ?_, fun data tail fd hok => ?_, fun msg hfail => ?_,
    fun hne a => ?_, fun fd buf count hread a ha => ?_⟩
  · obtain ⟨e, he⟩ := hostAnswer_of_fst hnone
    rw [callHost_wait he] at hstep
    cases hstep
    exact ⟨hrun, rfl, rfl, rfl, hhold.symm⟩
  · obtain ⟨e, he⟩ := hostAnswer_of_fst hok
    rw [callHost_ok he] at hstep
    cases hstep
    exact ⟨(advance_status _ _).trans hrun, advance_vs _ _, advance_rs _ _, advance_pc _ _⟩
  · obtain ⟨e, he⟩ := hostAnswer_of_fst hfail
    obtain ⟨hstatus, -⟩ := (callHost_fails rfl rfl rfl he).of_eq hstep
    exact hstatus
  · exact heffect.read_other hc hs.mem_wf fun fd buf count hread => absurd hread (hne fd buf count)
  · refine heffect.read_other hc hs.mem_wf fun fd' buf' count' hread' => ?_
    cases hread.symm.trans hread'
    exact ha

end Sys2Proof.Machine
end

section
/-! The family 60_exceptions.md: what a raised fault leaves, the codes, and the debug stop. -/

namespace Sys2Proof.Machine

/-! ## A raised fault (60_exceptions.md R203, R204, R216) -/

/-- `t` is `s` after an instruction that raised a fault recorded at index `p`: nothing was written, emitted or printed,
and nothing is waited for. -/
structure FaultFrame (s t : State) (p : Nat) : Prop where
  index_eq   : p = s.pc
  mem_eq     : t.mem = s.mem
  emitted_eq : t.out.emitted = s.out.emitted
  console_eq : t.out.console = s.out.console
  hold_eq    : t.hold = none

/-- Of the ends of a host call only a failure faults, and it is no wait any more. -/
theorem HostEffect.faultFrame {c : HostCall} {s t : State} {f : RunFault} {p : Nat} (h : HostEffect c s t)
    (hrun : s.status = .running) (hst : t.status = .faulted f p) : FaultFrame s t p := by
  cases h with
  | wait e => cases hrun.symm.trans hst
  | fail e msg =>
    cases hst
    exact ⟨rfl, rfl, rfl, rfl, rfl⟩
  | ok e data tail fd =>
    rw [advance_status] at hst
    cases hrun.symm.trans hst

/-- Of the effects of an instruction a fault raised by the block or by the host faults; every other one leaves
`running` or `halted`. -/
theorem Effect.faultFrame {i : Instr} {s t : State} {f : RunFault} {p : Nat} (h : Effect i s t)
    (hrun : s.status = .running) (hhold : s.hold = none) (hst : t.status = .faulted f p) : FaultFrame s t p := by
  cases h with
  | fault vs rs f hi =>
    cases hst
    exact ⟨rfl, rfl, rfl, rfl, hhold⟩
  | sequential =>
    rw [advance_status] at hst
    cases hrun.symm.trans hst
  | jump | call | ret => cases hrun.symm.trans hst
  | halt => cases hst
  | host c vs t _ _ _ _ _ ht =>
    obtain ⟨hindex, hmem, hemitted, hconsole, hnohold⟩ := ht.faultFrame hrun hst
    exact ⟨hindex, hmem, hemitted, hconsole, hnohold⟩

/-- Settles O17: the effects that fault keep the frame (`Effect.faultFrame`), and the run has ended. -/
theorem raisedFaultEndsTheRun : Obligations.RaisedFaultEndsTheRun := by
  intro i s t f p hrun hhold hexec hst
  have hframe : FaultFrame s t p := ((exec_effect i s).of_eq hexec).faultFrame hrun hhold hst
  have hended : t.status ≠ .running := by simp [hst]
  exact ⟨hframe.index_eq, endedRunTakesNoStep t hended, fun a => congrArg (Memory.read · a) hframe.mem_eq,
    hframe.emitted_eq, hframe.console_eq, hframe.hold_eq⟩

/-! ## Where no debug stop follows (60_exceptions.md R216) -/

section
variable {i : Instr} {target c : Word} {taken : Word → Prop} {s : State} {rest : List Word}

theorem CondJumpRule.exec_taken {t : Nat} (h : CondJumpRule i target taken) (hvs : s.vs = c :: rest) (hc : taken c)
    (ht : LabelTable.index? s.labels target = some t) : exec i s = .next ((s.setVs rest).setPc t) :=
  have ⟨hrule, _⟩ := h s
  have ⟨htaken, _⟩ := hrule c rest hvs
  htaken hc t ht

/-- With `debug`, a jump that is not taken is sequential: the trace, then the stop. -/
theorem CondJumpRule.exec_not_taken_debugging (h : CondJumpRule i target taken) (hvs : s.vs = c :: rest)
    (hc : ¬ taken c) (hdebug : s.debug = true) :
    exec i s = .next (((s.setVs rest).trace i).setHold (some (.console i))) := by
  obtain ⟨hrule, -⟩ := h s
  obtain ⟨-, -, hnot⟩ := hrule c rest hvs
  rw [hnot hc, ← advance_debugging i (s := s.setVs rest) hdebug]

end

/-- Settles O18: each transfer's own rule gives its whole next state, a fault's comes from O17, and the four
conditional jumps are sequential when not taken. -/
theorem noDebugStopAfterControlTransfer : Obligations.NoDebugStopAfterControlTransfer := by
  refine ⟨fun s target t ht => ⟨?_, fun c rest hvs => ?_, fun hroom => ?_⟩, fun s a rest hrs hlt => ?_,
    fun _ => rfl, fun i s t f p hrun hhold hexec hst => ?_, fun s target c rest hvs hdebug => ?_⟩
  · obtain ⟨-, hjump, -⟩ := jumpUnconditionalGoesToItsLabel target s
    exact hjump t ht
  · obtain ⟨⟨-, hequal⟩, ⟨-, hnotEqual⟩, ⟨-, hgreater⟩, ⟨-, hlesser⟩⟩ := conditionalJumpsTestThePoppedCode target
    exact ⟨fun hc => hequal.exec_taken hvs hc ht, fun hc => hnotEqual.exec_taken hvs hc ht,
      fun hc => hgreater.exec_taken hvs hc ht, fun hc => hlesser.exec_taken hvs hc ht⟩
  · rw [exec_call_room hroom]
    exact resolve_declared _ ht
  · rw [exec_ret_cons hrs, if_neg hlt.not_ge]
    rfl
  · obtain ⟨-, -, -, -, hconsole, hnohold⟩ := raisedFaultEndsTheRun i s t f p hrun hhold hexec hst
    exact ⟨hnohold, hconsole⟩
  · obtain ⟨⟨-, hequal⟩, ⟨-, hnotEqual⟩, ⟨-, hgreater⟩, ⟨-, hlesser⟩⟩ := conditionalJumpsTestThePoppedCode target
    exact ⟨fun hc => hequal.exec_not_taken_debugging hvs hc hdebug,
      fun hc => hnotEqual.exec_not_taken_debugging hvs (not_not.2 hc) hdebug,
      fun hc => hgreater.exec_not_taken_debugging hvs hc hdebug,
      fun hc => hlesser.exec_not_taken_debugging hvs hc hdebug⟩

/-! ## Codes and exit statuses (60_exceptions.md R200, R201, R207) -/

/-- The status left open for the three faults the source does not list is not that of a success (00_scope.md R13). -/
theorem extraFaultExitStatus_ne_zero : Config.extraFaultExitStatus ≠ 0 :=
  Nat.succ_ne_zero _

/-- Settles O19: the tables as R200, R201 and R207 list them, with `EXTRA_FAULT_EXIT_STATUS` as the open status. -/
theorem codesAndExitStatuses : Obligations.CodesAndExitStatuses :=
  ⟨fun _ _ => rfl, fun _ _ => rfl, rfl, rfl, fun _ => rfl, rfl, rfl, rfl, fun _ => rfl, fun _ => rfl,
    Config.extraFaultExitStatus, extraFaultExitStatus_ne_zero, rfl, rfl, rfl⟩

/-! ## The debug stop (60_exceptions.md R215) -/

theorem step_console {s : State} {i : Instr} (hrun : s.status = .running) (hhold : s.hold = some (.console i)) :
    step s = consoleStep i s :=
  step_waiting hrun hhold

/-- The state an input leaves differs from the one read in only in the model's view of the outside world. -/
theorem consoleAnswer_state {a : Option ConsoleInput} {s s' : State} (h : consoleAnswer s = (a, s')) :
    ∃ e, s' = s.setEnv e := by
  obtain ⟨e, he⟩ := consoleAnswer_env s
  exact ⟨e, by rw [h] at he; exact he⟩

theorem consoleStep_wait (i : Instr) {s s' : State} (h : consoleAnswer s = (none, s')) :
    consoleStep i s = .next s' := by
  simp only [consoleStep, h]

theorem consoleStep_mem (i : Instr) {s s' : State} (h : consoleAnswer s = (some (.line memCommand), s')) :
    consoleStep i s = .next (((s'.show (.input (.line memCommand))).printCells).reprompt i) := by
  simp only [consoleStep, h, if_true]

theorem consoleStep_resume (i : Instr) {c : ConsoleInput} {s s' : State} (h : consoleAnswer s = (some c, s'))
    (hc : c ≠ .line memCommand) :
    consoleStep i s = .next (((s'.show (.input c)).setHold none).setPc (s'.pc + 1)) := by
  simp only [consoleStep, h, if_neg hc]

/-- What a `mem` command is answered with, cell by cell, by whether the trace comes again. -/
theorem memAnswer_cases (i : Instr) (s : State) (retraced : Bool) :
    memAnswer i s retraced = [.input (.line memCommand), .cells ((List.range 30).map (Memory.read s.mem))] ∨
    memAnswer i s retraced =
      [.input (.line memCommand), .cells ((List.range 30).map (Memory.read s.mem)), .trace i s.vs s.rs] := by
  have hcells : Memory.readRange s.mem 0 Config.debugMemCells = (List.range 30).map (Memory.read s.mem) := by
    simp [Memory.readRange, Config.debugMemCells]
  cases retraced with
  | false => exact .inl (by simp [memAnswer, hcells])
  | true => exact .inr (by simp [memAnswer, hcells])

/-- Settles O52: the sequential end with `debug`, then one step of the stop by what the console gives. -/
theorem debugStopProtocol : Obligations.DebugStopProtocol := by
  refine ⟨fun i s hdebug => congrArg Host.Outcome.next (advance_debugging i hdebug), fun i s hrun hhold => ?_⟩
  rw [step_console hrun hhold]
  refine ⟨fun s' h => ?_, fun c s' h hc => ?_, fun s' h => ?_⟩
  · obtain ⟨e, rfl⟩ := consoleAnswer_state h
    rw [consoleStep_mem i h, mem_prompt_eq]
    exact ⟨_, _, rfl, (memAnswer_cases i s _).imp (congrArg _) (congrArg _)⟩
  · obtain ⟨e, rfl⟩ := consoleAnswer_state h
    rw [consoleStep_resume i h hc]
    exact ⟨e, rfl⟩
  · obtain ⟨e, rfl⟩ := consoleAnswer_state h
    exact ⟨e, consoleStep_wait i h⟩

end Sys2Proof.Machine
end

section
/-! The family 70_reset_and_hazards.md: what the decode loop makes of a stream, the start and the end of a run. -/

namespace Sys2Proof.Machine

/-! ## What one instruction decodes to (30_encoding.md R63 to R65) -/

theorem decodeF0_wf {op : Byte} {i : Instr} (h : decodeF0 op = some i) : i.wf = true := by
  unfold decodeF0 at h
  split at h <;> cases h <;> rfl

theorem decodeFI_wf {op : Byte} {mk : Word → Instr} (h : decodeFI op = some mk) (v : Word) : (mk v).wf = true := by
  unfold decodeFI at h
  split at h <;> cases h <;> rfl

/-- The decoder yields only terms a byte stream spells (R65, R75): only the bytes of a string need a check, and the scan
makes it. -/
theorem decodeOne_wf {k : Nat} {op : Byte} {rest rest' : List Byte} {i : Instr}
    (h : decodeOne k op rest = .instr i rest') : i.wf = true := by
  unfold decodeOne at h
  split at h
  next hf0 =>
    cases h
    exact decodeF0_wf hf0
  · split at h
    next hfi =>
      split at h <;> cases h
      exact decodeFI_wf hfi _
    · split_ifs at h
      split at h <;> cases h
      next hscan =>
        obtain ⟨htext, -⟩ := scanString_done _ _ _ _ hscan
        exact htext

/-! ## What the decode loop keeps (30_encoding.md R68) -/

/-- The induction over the decode loop: what holds of the program and the labels so far, and is kept by every
well-formed instruction taken in below the capacity, holds of an accepted stream's program and labels. -/
theorem decodeFrom_keeps {cap : Option Nat} {P : List Instr → LabelTable → Prop}
    (hkeep : ∀ prog labels i, i.wf = true → cap ≠ some prog.length → P prog labels →
      P (prog ++ [i]) (declareLabel labels prog.length i)) {prog' : List Instr} {labels' : LabelTable} :
    ∀ (fuel k : Nat) (bytes : List Byte) (prog : List Instr) (labels : LabelTable), P prog labels →
    decodeFrom cap fuel k bytes prog labels = .program prog' labels' → P prog' labels'
  | 0, _, _, _, _, hP, h => by
    cases h
    exact hP
  | _ + 1, _, [], _, _, hP, h => by
    cases h
    exact hP
  | fuel + 1, k, op :: rest, prog, labels, hP, h => by
    rw [decodeFrom] at h
    split at h
    · cases h
      exact hP
    · cases h
    next i rest' hdecode =>
      split_ifs at h with hcap
      exact decodeFrom_keeps hkeep fuel _ _ _ _ (hkeep prog labels i (decodeOne_wf hdecode) hcap hP) h

/-- The invariant of the decode loop: the labels are those of the program so far (R69), whose instructions a byte stream
spells (R65), within the capacity (00_scope.md R11). -/
structure DecodedSoFar (cap : Option Nat) (prog : List Instr) (labels : LabelTable) : Prop where
  labels_eq : labels = labelsOf prog
  prog_wf   : ∀ i ∈ prog, i.wf = true
  prog_fits : Fits cap prog.length

theorem fits_zero (cap : Option Nat) : Fits cap 0 := by
  cases cap <;> simp

theorem fits_succ_of_ne {cap : Option Nat} {n : Nat} (hfits : Fits cap n) (hne : cap ≠ some n) : Fits cap (n + 1) := by
  cases cap with
  | none => rfl
  | some c =>
    simp only [fits_some, decide_eq_true_eq, ne_eq, Option.some.injEq, Fits] at hfits hne ⊢
    omega

theorem DecodedSoFar.append {cap : Option Nat} {prog : List Instr} {labels : LabelTable} {i : Instr}
    (h : DecodedSoFar cap prog labels) (hi : i.wf = true) (hcap : cap ≠ some prog.length) :
    DecodedSoFar cap (prog ++ [i]) (declareLabel labels prog.length i) where
  labels_eq := by rw [labelsOf_append, h.labels_eq]
  prog_wf := List.forall_mem_append.2 ⟨h.prog_wf, List.forall_mem_singleton.2 hi⟩
  prog_fits := by
    rw [List.length_append]
    exact fits_succ_of_ne h.prog_fits hcap

theorem decodeProgram_decoded {cap : Option Nat} {bytes : List Byte} {prog : List Instr} {labels : LabelTable}
    (h : decodeProgram cap bytes = .program prog labels) : DecodedSoFar cap prog labels :=
  decodeFrom_keeps (fun _ _ _ hi hcap hsofar => hsofar.append hi hcap) _ _ _ _ _
    ⟨rfl, List.forall_mem_nil _, fits_zero cap⟩ h

/-- The first instruction read is the first of the program: the loop only appends to what it has (R68). -/
theorem decodeProgram_head {cap : Option Nat} {op : Byte} {rest rest' : List Byte} {i : Instr} {prog : List Instr}
    {labels : LabelTable} (hdecode : decodeOne 0 op rest = .instr i rest')
    (h : decodeProgram cap (op :: rest) = .program prog labels) : prog[0]? = some i := by
  rw [decodeProgram_eq_decodeRest, decodeRest_instr hdecode] at h
  split_ifs at h
  have hprefix : [i] <+: prog :=
    decodeFrom_keeps (P := fun q _ => [i] <+: q) (fun _ _ _ _ _ hq => hq.trans (List.prefix_append _ _)) _ _ _ _ _
      List.prefix_rfl h
  obtain ⟨tail, rfl⟩ := hprefix
  rfl

/-! ## The start of a run (70_reset_and_hazards.md R230, R231) -/

theorem boot_eq_next_iff {p : Params} {debug : Bool} {bytes : List Byte} {s : State} :
    boot p debug bytes = .next s ↔
      ∃ prog labels, decodeProgram p.imemCap bytes = .program prog labels ∧ s = State.start p debug prog labels := by
  unfold boot
  cases decodeProgram p.imemCap bytes <;> simp [eq_comm]

/-- A run of what the decoder makes starts in the invariant: `pc` is 0, the stacks and memory are empty, and nothing is
waited for. -/
theorem DecodedSoFar.start_inv {p : Params} {prog : List Instr} {labels : LabelTable}
    (h : DecodedSoFar p.imemCap prog labels) (debug : Bool) : (State.start p debug prog labels).Inv where
  mem_wf := rfl
  labels_decoded := h.labels_eq
  prog_wf := h.prog_wf
  pc_le := Nat.zero_le _
  rs_le := List.forall_mem_nil _
  vs_fits := fits_zero _
  rs_fits := fits_zero _
  prog_fits := h.prog_fits
  hold_host _ heq := nomatch heq
  hold_console _ heq := nomatch heq
  completed_at_end heq := nomatch heq
  halted_at_halt heq := nomatch heq
  faulted_at _ _ heq := nomatch heq

/-- Settles O12: an accepted stream meets the loop's invariant, and the state it starts is otherwise that of reset. -/
theorem bootMeetsTheInvariant : Obligations.BootMeetsTheInvariant := by
  intro p debug bytes s hboot
  obtain ⟨prog, labels, hdecode, rfl⟩ := boot_eq_next_iff.1 hboot
  exact (decodeProgram_decoded hdecode).start_inv debug

/-- Settles O8: the run starts at `pc = 0`, where the first instruction read stands, with nothing waited for. -/
theorem firstDecodedInstructionRunsFirst : Obligations.FirstDecodedInstructionRunsFirst := by
  intro p debug op rest rest' i s hdecode hboot
  obtain ⟨prog, labels, hprog, rfl⟩ := boot_eq_next_iff.1 hboot
  have hfetch : fetch (State.start p debug prog labels) = some i := decodeProgram_head hdecode hprog
  exact ⟨hfetch, (step_boundary rfl rfl).trans (dispatch_of_fetch hfetch)⟩

/-! ## The end of a run (70_reset_and_hazards.md R237) -/

theorem State.observe_of_result {s : State} {r : RunResult} (h : s.status.result = some r) :
    s.observe = some ⟨r, s.out.emitted, s.out.hostLog, s.final⟩ := by
  rw [State.observe, h, Option.map_some]

/-- The final stacks and memory show after a run that ended without a fault (60_exceptions.md R204). -/
theorem State.final_of_ended {s : State} (h : s.status = .completed ∨ s.status = .halted) :
    s.final = some (s.vs, s.rs, s.mem) := by
  rcases h with h | h <;> simp only [State.final, h]

theorem State.final_of_faulted {s : State} {f : RunFault} {p : Nat} (h : s.status = .faulted f p) : s.final = none := by
  simp only [State.final, h]

/-- Settles O20, status by status: the result that is shown, and whether the final stacks and memory are. -/
theorem endOfRunObservation : Obligations.EndOfRunObservation := by
  refine fun s => ⟨fun h => ?_, fun h => ?_, fun h => ?_, fun f p h => ?_⟩
  · rw [State.observe, h]
    rfl
  · rw [State.observe_of_result (congrArg Status.result h), State.final_of_ended (.inl h)]
  · rw [State.observe_of_result (congrArg Status.result h), State.final_of_ended (.inr h)]
  · rw [State.observe_of_result (congrArg Status.result h), State.final_of_faulted h]

end Sys2Proof.Machine
end
